-- ==== Sys2Proof/Word.lean ====
section
/-! DEFINITION. The machine's one word: the unsigned byte of 10_state.md R24 and 00_scope.md R10. -/

namespace Sys2Proof

/-- AC, PC, every memory cell and every operand: an unsigned value of 8 bits (10_state.md R20, R22, R24, R33). -/
abbrev Byte := BitVec 8

end Sys2Proof
end

