-- ==== Sys2Proof/Config.lean ====
section
/-! DEFINITION. The fixed values of 00_scope.md R6, the mnemonics of 30_encoding.md R62, and the TYPES of the
named parameters of 00_scope.md R7. The parameters' default values stand in Decode.lean (OPCODE_MAP) and
Machine/Params.lean. -/

namespace Sys2Proof

/-- MEM_SIZE of 00_scope.md R6. -/
def memSize : Nat := 256

/-- HEADER_SIZE of 00_scope.md R6. -/
def headerSize : Nat := 4

/-- IMAGE_SIZE of 00_scope.md R6. -/
def imageSize : Nat := headerSize + memSize

/-- DATA_BASE of 00_scope.md R6; the assembler's, not the core's. -/
def dataBase : Nat := 0x80

/-- The names OPCODE_MAP gives bytes to: the 14 of 00_scope.md R2, in the order of 30_encoding.md R62. -/
inductive Mnemonic where
  | nop | lda | sta | add | sub | mul | div | or | and | not | jmp | jn | jz | hlt
deriving DecidableEq, Repr

/-- All 14, in the order of 30_encoding.md R62. -/
def Mnemonic.all : List Mnemonic :=
  [.nop, .lda, .sta, .add, .sub, .mul, .div, .or, .and, .not, .jmp, .jn, .jz, .hlt]

/-- OPCODE_MAP: one byte for each mnemonic (00_scope.md R7, 30_encoding.md R63 (a)). Its injectivity,
R63 (b), is `OpcodeMap.wf`. -/
structure OpcodeMap where
  nop : Byte
  lda : Byte
  sta : Byte
  add : Byte
  sub : Byte
  mul : Byte
  div : Byte
  or  : Byte
  and : Byte
  not : Byte
  jmp : Byte
  jn  : Byte
  jz  : Byte
  hlt : Byte
deriving DecidableEq, Repr

/-- `OPCODE_MAP(m)` of 30_encoding.md R64. -/
def OpcodeMap.byteOf (map : OpcodeMap) : Mnemonic → Byte
  | .nop => map.nop
  | .lda => map.lda
  | .sta => map.sta
  | .add => map.add
  | .sub => map.sub
  | .mul => map.mul
  | .div => map.div
  | .or  => map.or
  | .and => map.and
  | .not => map.not
  | .jmp => map.jmp
  | .jn  => map.jn
  | .jz  => map.jz
  | .hlt => map.hlt

/-- NOT_PC_ADVANCE is 1 or 2 (00_scope.md R7). -/
inductive NotPcAdvance where
  | one
  | two
deriving DecidableEq, Repr

/-- The number a NOT_PC_ADVANCE stands for. -/
def NotPcAdvance.toNat : NotPcAdvance → Nat
  | .one => 1
  | .two => 2

/-- The named parameters of 00_scope.md R7 that a step reads. REPORT_FORMAT, which none reads, is the opaque
`Machine.reportFormat`. -/
structure Params where
  /-- OPCODE_MAP, 30_encoding.md R63. -/
  opcodeMap : OpcodeMap
  /-- MAX_STEPS, 60_exceptions.md R148: `none` is "no bound applies". -/
  maxSteps : Option Nat
  /-- NOT_PC_ADVANCE, 41_alu.md R122. -/
  notPcAdvance : NotPcAdvance
deriving DecidableEq, Repr

end Sys2Proof
end

