-- ==== Sys2Proof/Syntax.lean ====
section
/-! DEFINITION. The instruction set: 14 instructions, one constructor for each row of spec/opcode_table.json
(00_scope.md R2, 30_encoding.md R62). -/

namespace Sys2Proof

/-- The closed instruction set of 00_scope.md R2. `a` is the raw operand byte of format F1, an absolute
8-bit address; every value is legal (30_encoding.md R66, R67). -/
inductive Instr where
  /-- NOP, 40_nop_and_transfer.md R100. -/
  | nop
  /-- LDA a, 40_nop_and_transfer.md R102. -/
  | lda (a : Byte)
  /-- STA a, 40_nop_and_transfer.md R104. -/
  | sta (a : Byte)
  /-- ADD a, 41_alu.md R110. -/
  | add (a : Byte)
  /-- SUB a, 41_alu.md R112. -/
  | sub (a : Byte)
  /-- MUL a, 41_alu.md R114. -/
  | mul (a : Byte)
  /-- DIV a, 41_alu.md R116. -/
  | div (a : Byte)
  /-- OR a, 41_alu.md R118. -/
  | or (a : Byte)
  /-- AND a, 41_alu.md R120. -/
  | and (a : Byte)
  /-- NOT, 41_alu.md R122. -/
  | not
  /-- JMP a, 42_control.md R130. -/
  | jmp (a : Byte)
  /-- JN a, 42_control.md R132. -/
  | jn (a : Byte)
  /-- JZ a, 42_control.md R134. -/
  | jz (a : Byte)
  /-- HLT, 42_control.md R136. -/
  | hlt
deriving DecidableEq, Repr

/-- The mnemonic of an instruction. -/
def Instr.mnemonic : Instr → Mnemonic
  | .nop => .nop
  | .lda _ => .lda
  | .sta _ => .sta
  | .add _ => .add
  | .sub _ => .sub
  | .mul _ => .mul
  | .div _ => .div
  | .or _ => .or
  | .and _ => .and
  | .not => .not
  | .jmp _ => .jmp
  | .jn _ => .jn
  | .jz _ => .jz
  | .hlt => .hlt

/-- The operand byte of an F1 instruction; none for F0 (30_encoding.md R60, R61). -/
def Instr.operand : Instr → Option Byte
  | .nop => none
  | .lda a => some a
  | .sta a => some a
  | .add a => some a
  | .sub a => some a
  | .mul a => some a
  | .div a => some a
  | .or a => some a
  | .and a => some a
  | .not => none
  | .jmp a => some a
  | .jn a => some a
  | .jz a => some a
  | .hlt => none

end Sys2Proof
end

