-- ==== Sys2Proof/WellFormed.lean ====
section
/-! DEFINITION. Well-formedness. An operand byte has no illegal value (30_encoding.md R67), so the one check on
an instruction is about its encoding: R63 (b), no two mnemonics share a byte. -/

namespace Sys2Proof

/-- 30_encoding.md R63 (b): OPCODE_MAP is injective. -/
abbrev OpcodeMap.wf (map : OpcodeMap) : Prop :=
  (Mnemonic.all.map map.byteOf).Nodup

/-- The instruction has a meaning of its own in `map`: its opcode byte stands for no other mnemonic
(30_encoding.md R63 (b)). Every instruction of a well-formed map meets it, with every operand byte (R67). -/
abbrev Instr.wf (map : OpcodeMap) (i : Instr) : Prop :=
  ∀ n ∈ Mnemonic.all, map.byteOf n = map.byteOf i.mnemonic → n = i.mnemonic

end Sys2Proof
end

