-- ==== Sys2Proof/Decode.lean ====
section
/-! DEFINITION. The default OPCODE_MAP, formats, the decoder (total on any bytes, refusing by name) and the
encoder (30_encoding.md R60 to R72). -/

namespace Sys2Proof

/-- The default OPCODE_MAP of 30_encoding.md R62. UNVERIFIED (unsafe for claims about concrete bytes): the source gives no
byte values; the spec takes them by decision D2 (log entry 1). -/
def defaultOpcodeMap : OpcodeMap where
  nop := 0x00
  lda := 0x20
  sta := 0x10
  add := 0x30
  sub := 0x70
  mul := 0xC0
  div := 0xD0
  or  := 0x40
  and := 0x50
  not := 0x60
  jmp := 0x80
  jn  := 0x90
  jz  := 0xA0
  hlt := 0xF0

/-- The two formats of 30_encoding.md R60 and R61. -/
inductive Format where
  /-- One byte: the opcode. -/
  | f0
  /-- Two bytes: the opcode, then the absolute address. -/
  | f1
deriving DecidableEq, Repr

/-- The format of each mnemonic: the arity column of 30_encoding.md R62. -/
def formatOf : Mnemonic → Format
  | .nop => .f0
  | .lda => .f1
  | .sta => .f1
  | .add => .f1
  | .sub => .f1
  | .mul => .f1
  | .div => .f1
  | .or  => .f1
  | .and => .f1
  | .not => .f0
  | .jmp => .f1
  | .jn  => .f1
  | .jz  => .f1
  | .hlt => .f0

/-- Instruction lengths in bytes (30_encoding.md R60, R61, R65). -/
def Format.length : Format → Nat
  | .f0 => 1
  | .f1 => 2

/-- `decode(op)` of 30_encoding.md R64: the mnemonic whose byte is `op`, all 8 bits compared, or none. In a map
that is not injective, which R63 (b) forbids, the first in the order of R62 is taken (DESIGN CHOICE, safe, log entry 16). -/
def decodeOpcode (map : OpcodeMap) (op : Byte) : Option Mnemonic :=
  Mnemonic.all.find? (fun n => map.byteOf n == op)

/-- The instruction of a mnemonic and an operand byte; an F0 mnemonic takes no operand. -/
def instrOf : Mnemonic → Byte → Instr
  | .nop, _ => .nop
  | .lda, a => .lda a
  | .sta, a => .sta a
  | .add, a => .add a
  | .sub, a => .sub a
  | .mul, a => .mul a
  | .div, a => .div a
  | .or,  a => .or a
  | .and, a => .and a
  | .not, _ => .not
  | .jmp, a => .jmp a
  | .jn,  a => .jn a
  | .jz,  a => .jz a
  | .hlt, _ => .hlt

/-- Why bytes are no instruction. -/
inductive DecodeError where
  /-- There is no byte to decode. The core never meets it: it fetches an opcode byte in every step (20_memory.md R41). -/
  | noBytes
  /-- The opcode byte is not in OPCODE_MAP (30_encoding.md R68): the step raises UnknownOpcode. -/
  | unknownOpcode (op : Byte)
  /-- An F1 opcode byte with no byte after it. The core never meets it: it fetches the operand byte of every F1
  instruction, and every address is a cell (20_memory.md R42). -/
  | missingOperand (m : Mnemonic)
deriving DecidableEq, Repr

/-- The decoder: the instruction at the head of a list of bytes, and the bytes after it (30_encoding.md R60, R61,
R64, R65). -/
def decode (map : OpcodeMap) : List Byte → Except DecodeError (Instr × List Byte)
  | [] => .error .noBytes
  | op :: rest =>
    match decodeOpcode map op with
    | none => .error (.unknownOpcode op)
    | some m =>
      match formatOf m, rest with
      | .f0, rest => .ok (instrOf m 0, rest)
      | .f1, [] => .error (.missingOperand m)
      | .f1, a :: rest => .ok (instrOf m a, rest)

/-- The encoder: the opcode byte, then the raw address byte if there is one, in increasing addresses
(30_encoding.md R60, R61, 20_memory.md R44). -/
def encode (map : OpcodeMap) (i : Instr) : List Byte :=
  map.byteOf i.mnemonic :: i.operand.toList

/-- The two bytes, first byte first, of an instruction whose bits are `w`, bit 0 the least significant bit of the
first byte; the bits from `nbits` on are 0. -/
def tableWordBytes (nbits w : Nat) : List Byte :=
  [BitVec.ofNat 8 (w % 2 ^ nbits), BitVec.ofNat 8 (w % 2 ^ nbits / 2 ^ 8)]

/-- The instruction the decoder reads, under the default OPCODE_MAP, from a word numbered as
spec/opcode_table.json numbers it. -/
def decodeTableWord (nbits w : Nat) : Option Instr :=
  match decode defaultOpcodeMap (tableWordBytes nbits w) with
  | .ok (i, _) => some i
  | .error _ => none

end Sys2Proof
end

