-- ==== Sys2Proof/Machine/Params.lean ====
section
/-! DEFINITION. The default values of the named parameters of 00_scope.md R7. -/

namespace Sys2Proof.Machine

/-- NOT_PC_ADVANCE is 1 by default (41_alu.md R122; the spec's decision D4 on conflict C1, log entry 9). -/
def defaultNotPcAdvance : NotPcAdvance := .one

/-- MAX_STEPS is none by default: no bound applies (60_exceptions.md R148; the spec's decision D11, log entry 10). -/
def defaultMaxSteps : Option Nat := none

/-- All defaults of 00_scope.md R7. -/
def defaultParams : Params where
  opcodeMap := defaultOpcodeMap
  maxSteps := defaultMaxSteps
  notPcAdvance := defaultNotPcAdvance

end Sys2Proof.Machine
end

