-- ==== Sys2Proof/Machine/State.lean ====
section
/-! DEFINITION. The machine's state (10_state.md R35), the state right after reset (R36), and the reasons a step stops. -/

namespace Sys2Proof.Machine

/-- M: (address, byte) pairs, addresses strictly rising, no pair equal to what an unlisted address reads as
(`Memory.wf`; log entry 13). -/
abbrev Memory := List Host.Cell

/-- RS, the run status of 10_state.md R27. -/
inductive RunStatus where
  /-- Code 0: the next step may execute. -/
  | running
  /-- Code 1: HLT was executed (42_control.md R136). -/
  | halted
  /-- Code 2: the opcode byte at PC is not in OPCODE_MAP (60_exceptions.md R142). -/
  | unknownOpcode
  /-- Code 3: the host step bound was reached (60_exceptions.md R148). -/
  | stepLimit
deriving DecidableEq, Repr

/-- One report of the event log EV (10_state.md R29). -/
inductive Event where
  /-- The address of the DIV opcode byte (60_exceptions.md R140). -/
  | divisionByZero (pc : Byte)
  /-- The address of the fetched byte and the byte (60_exceptions.md R142). -/
  | unknownOpcode (pc byte : Byte)
deriving DecidableEq, Repr

/-- The tuple (AC, PC, M, RS, EV, NSTEP) of 10_state.md R35, and the named parameters of 00_scope.md R7, which stand here
because a step has no other argument; no step changes them (log entry 2). -/
structure State where
  /-- AC, 10_state.md R20. -/
  ac : Byte
  /-- PC, 10_state.md R22. -/
  pc : Byte
  /-- M, 10_state.md R33. -/
  mem : Memory
  /-- RS, 10_state.md R27. -/
  rs : RunStatus
  /-- EV, oldest report first, 10_state.md R29. -/
  ev : List Event
  /-- NSTEP, 10_state.md R30. -/
  nstep : Nat
  /-- The named parameters, 00_scope.md R7. -/
  params : Params
deriving DecidableEq, Repr

/-- Why the machine stops with a fault. -/
inductive Fault where
  /-- Raised by the instruction cycle when a step is asked for and RS is not RUNNING: "A step is defined only while
  RS = RUNNING" (10_state.md R28, 60_exceptions.md R146). Stuck; safe (log entry 5). `rs` is how the run ended. -/
  | runEnded (rs : RunStatus)
deriving DecidableEq, Repr

/-- Why a step has no meaning. -/
inductive Refusal where
  /-- Raised by an arm of `exec` whose instruction has no meaning yet; no arm raises it now. Safe. -/
  | notModelled (mnemonic : String)
deriving DecidableEq, Repr

/-- The outcome of an instruction or of a step. -/
abbrev Result := Host.Outcome State Fault Refusal

/-- Right after reset, that is after a load (10_state.md R36, 70_reset_and_hazards.md R162): AC = PC = 0x00, RS = RUNNING,
EV empty, NSTEP = 0. DESIGN CHOICE (unsafe for claims about reset memory): the image loaded has an all-zero payload,
since the spec gives none (log entry 3). The parameters have their defaults. -/
def State.reset : State where
  ac := 0x00
  pc := 0x00
  mem := []
  rs := .running
  ev := []
  nstep := 0
  params := defaultParams

end Sys2Proof.Machine
end

