-- ==== Sys2Proof/Machine/Ops.lean ====
section
/-! DEFINITION. The named operations over memory, registers and the run (00_scope.md R12, R13), with the raising of a
runtime condition as one shared operation. -/

namespace Sys2Proof.Machine

/-- What an unlisted address reads as. A loaded memory has a byte at each of its 256 addresses (10_state.md R35), so this is
how a 0x00 is written down, not a value the spec leaves open (log entry 13). -/
def unlistedByte : Byte := 0x00

/-- The canonical form: addresses strictly rising and below 256 (20_memory.md R40), no pair an unlisted address reads as. -/
abbrev Memory.wf (m : Memory) : Prop :=
  m.Pairwise (fun c d => c.1 < d.1) ∧ ∀ c ∈ m, c.1 < memSize ∧ c.2 ≠ unlistedByte

/-- The byte at address `k`. -/
def Memory.read : Memory → Nat → Byte
  | [], _ => unlistedByte
  | (k', b) :: rest, k => if k' = k then b else Memory.read rest k

/-- A pair put in front of a memory, left out where it is what an unlisted address reads as. -/
def Memory.put (k : Nat) (v : Byte) (m : Memory) : Memory :=
  if v = unlistedByte then m else (k, v) :: m

/-- The memory with `v` at address `k`, in canonical form. -/
def Memory.write : Memory → Nat → Byte → Memory
  | [], k, v => Memory.put k v []
  | (k', b) :: rest, k, v =>
    if k < k' then Memory.put k v ((k', b) :: rest)
    else if k' = k then Memory.put k v rest
    else (k', b) :: Memory.write rest k v

/-- Address arithmetic is mod 256 (20_memory.md R43, 10_state.md R23; the spec's decision D6, log entry 7). -/
def addrAdd (a : Byte) (n : Nat) : Byte := BitVec.ofNat 8 (a.toNat + n)

/-- `MemRead(a, 1)` of 00_scope.md R12: it never faults (20_memory.md R42) and changes nothing (R46). -/
def State.memRead (s : State) (a : Byte) : Byte := Memory.read s.mem a.toNat

/-- `MemWrite(a, 1, v)` of 00_scope.md R12: it changes exactly M[a] (20_memory.md R46). -/
def State.memWrite (s : State) (a v : Byte) : State := { s with mem := Memory.write s.mem a.toNat v }

/-- `AC <- v` of 00_scope.md R12. -/
def State.setAc (s : State) (v : Byte) : State := { s with ac := v }

/-- `pc <- target` of 00_scope.md R12. -/
def State.setPc (s : State) (target : Byte) : State := { s with pc := target }

/-- `pc <- (pc0 + n) mod 256` (30_encoding.md R71). -/
def State.advance (s : State) (n : Nat) : State := s.setPc (addrAdd s.pc n)

/-- `report E(info)` of 00_scope.md R13: the event goes to the end of EV, and nothing else changes (10_state.md R29). -/
def State.report (s : State) (e : Event) : State := { s with ev := s.ev ++ [e] }

/-- `stop S(info)` of 00_scope.md R13: RS <- S. -/
def State.stop (s : State) (r : RunStatus) : State := { s with rs := r }

/-- `raise X(info)` of 00_scope.md R13, the one entry of both runtime conditions: DivisionByZero is reported and the run goes
on (60_exceptions.md R140); UnknownOpcode is reported and the run stops (R142). Nothing is saved and control goes to no
vector (R145); there is no return (R147). -/
def State.raise (s : State) : Event → State
  | .divisionByZero pc => s.report (.divisionByZero pc)
  | .unknownOpcode pc byte => (s.report (.unknownOpcode pc byte)).stop .unknownOpcode

/-- `NSTEP <- NSTEP + 1` (10_state.md R30, 30_encoding.md R70). -/
def State.countStep (s : State) : State := { s with nstep := s.nstep + 1 }

/-- `MAX_STEPS = some k and NSTEP >= k` (60_exceptions.md R148, 30_encoding.md R70). -/
def State.boundReached (s : State) : Bool :=
  match s.params.maxSteps with
  | none => false
  | some k => k ≤ s.nstep

/-- The host's bound becomes `k` (60_exceptions.md R148, R158). No step does this. -/
def State.setMaxSteps (s : State) (k : Option Nat) : State := { s with params := { s.params with maxSteps := k } }

/-- The run of a loaded state has not begun: it is RUNNING and no step of it is counted (10_state.md R27, R30). -/
def State.runNotBegun (s : State) : Bool := s.rs == .running && s.nstep == 0

/-- "`MAX_STEPS` before the run" (60_exceptions.md R158): a loaded state takes the bound as long as its run has not begun, and
keeps its own from then on (DESIGN CHOICE for a run that has begun, log entry 10). -/
def State.boundBeforeRun (s : State) (k : Option Nat) : State := if s.runNotBegun then s.setMaxSteps k else s

end Sys2Proof.Machine
end

