-- ==== Sys2Proof/Machine/Flags.lean ====
section
/-! DEFINITION. The two conditions a jump computes from AC, and the ALU's results. No flag is stored (10_state.md R25), and
there is no carry, borrow, overflow or parity (R26). -/

namespace Sys2Proof.Machine

/-- N = AC[7] (10_state.md R25). -/
def negative (ac : Byte) : Bool := ac.msb

/-- Z = (AC = 0) (10_state.md R25). -/
def zero (ac : Byte) : Bool := ac == 0#8

/-- The derived N of a state (10_state.md R25). -/
def State.flagN (s : State) : Bool := negative s.ac

/-- The derived Z of a state (10_state.md R25). -/
def State.flagZ (s : State) : Bool := zero s.ac

/-- The exact sum, reduced mod 256 (41_alu.md R108, R110). -/
def aluAdd (ac m : Byte) : Byte := BitVec.ofNat 8 (ac.toNat + m.toNat)

/-- The exact difference AC minus memory, reduced mod 256 (41_alu.md R108, R112). -/
def aluSub (ac m : Byte) : Byte := BitVec.ofInt 8 (ac.toNat - m.toNat)

/-- The exact product, reduced mod 256 (41_alu.md R108, R114). -/
def aluMul (ac m : Byte) : Byte := BitVec.ofNat 8 (ac.toNat * m.toNat)

/-- The unsigned quotient rounded toward zero, for m not 0 (41_alu.md R108, R116; unsigned by the spec's decision D7, log
entry 8). -/
def aluDiv (ac m : Byte) : Byte := BitVec.ofNat 8 (ac.toNat / m.toNat)

/-- Bitwise OR (41_alu.md R118). -/
def aluOr (ac m : Byte) : Byte := ac ||| m

/-- Bitwise AND (41_alu.md R120). -/
def aluAnd (ac m : Byte) : Byte := ac &&& m

/-- The complement, 255 - AC (41_alu.md R122, 00_scope.md R11). -/
def aluNot (ac : Byte) : Byte := BitVec.ofNat 8 (255 - ac.toNat)

end Sys2Proof.Machine
end

