-- ==== Sys2Proof/Machine/Operands.lean ====
section
/-! DEFINITION. The operand forms of 30_encoding.md R66, and the fetch of an instruction's bytes (20_memory.md R41). -/

namespace Sys2Proof.Machine

/-- Memory direct, the form of LDA, the ALU instructions and STA's destination: the operand byte unchanged is the address
(30_encoding.md R66). -/
def directAddr (a : Byte) : Byte := a

/-- The memory operand `m = MemRead(a, 1)` (41_alu.md, heading). -/
def State.memOperand (s : State) (a : Byte) : Byte := s.memRead (directAddr a)

/-- The form of the jumps: the operand byte itself is the target, and no memory is read (30_encoding.md R66, 42_control.md
R128). -/
def jumpTarget (a : Byte) : Byte := a

/-- Where the operand byte of the instruction at `pc` lies: (PC + 1) mod 256 (20_memory.md R43). -/
def operandAddr (pc : Byte) : Byte := addrAdd pc 1

/-- The bytes a step fetches at PC: the opcode byte, and the operand byte for an F1 opcode alone (20_memory.md R41,
30_encoding.md R72). Fetch reads the memory STA writes (20_memory.md R53). -/
def State.fetchBytes (s : State) : List Byte :=
  match (decodeOpcode s.params.opcodeMap (s.memRead s.pc)).map formatOf with
  | some .f1 => [s.memRead s.pc, s.memRead (operandAddr s.pc)]
  | some .f0 => [s.memRead s.pc]
  | none => [s.memRead s.pc]

end Sys2Proof.Machine
end

