-- ==== Sys2Proof/Machine/Alu.lean ====
section
/-! DEFINITION. The ALU instructions (41_alu.md), bodies of the step of 30_encoding.md R70. -/

namespace Sys2Proof.Machine

/-- The shape the two-operand ALU instructions share: AC <- f(AC, M[a]); PC advances by 2. -/
def State.accumulate (s : State) (f : Byte → Byte → Byte) (a : Byte) : State :=
  (s.setAc (f s.ac (s.memOperand a))).advance 2

/-- ADD a (R110). -/
def execAdd (a : Byte) (s : State) : Result := .next (s.accumulate aluAdd a)

/-- SUB a (R112). -/
def execSub (a : Byte) (s : State) : Result := .next (s.accumulate aluSub a)

/-- MUL a (R114). -/
def execMul (a : Byte) (s : State) : Result := .next (s.accumulate aluMul a)

/-- DIV a (R116): a zero divisor is reported with the address of the DIV opcode byte, AC stays, and the run goes on
(60_exceptions.md R140); PC advances by 2 in both cases. -/
def execDiv (a : Byte) (s : State) : Result :=
  if s.memOperand a = 0#8 then .next ((s.raise (.divisionByZero s.pc)).advance 2)
  else .next (s.accumulate aluDiv a)

/-- OR a (R118). -/
def execOr (a : Byte) (s : State) : Result := .next (s.accumulate aluOr a)

/-- AND a (R120). -/
def execAnd (a : Byte) (s : State) : Result := .next (s.accumulate aluAnd a)

/-- NOT (R122): AC <- ~AC; PC advances by NOT_PC_ADVANCE. -/
def execNot (s : State) : Result := .next ((s.setAc (aluNot s.ac)).advance s.params.notPcAdvance.toNat)

end Sys2Proof.Machine
end

