-- ==== Sys2Proof/Machine/Control.lean ====
section
/-! DEFINITION. Control transfer (42_control.md), bodies of the step of 30_encoding.md R70. -/

namespace Sys2Proof.Machine

/-- The shape the conditional jumps share: the target where the condition holds, else PC advances by 2. -/
def State.jumpIf (s : State) (taken : Bool) (a : Byte) : State :=
  match taken with
  | true => s.setPc (jumpTarget a)
  | false => s.advance 2

/-- JMP a (R130): PC <- a. -/
def execJmp (a : Byte) (s : State) : Result := .next (s.setPc (jumpTarget a))

/-- JN a (R132): PC <- a where AC[7] = 1. -/
def execJn (a : Byte) (s : State) : Result := .next (s.jumpIf s.flagN a)

/-- JZ a (R134): PC <- a where AC = 0. -/
def execJz (a : Byte) (s : State) : Result := .next (s.jumpIf s.flagZ a)

/-- HLT (R136): stop HALTED; PC stays at the HLT byte. -/
def execHlt (s : State) : Result := .next (s.stop .halted)

end Sys2Proof.Machine
end

