-- ==== Sys2Proof/Machine/Transfer.lean ====
section
/-! DEFINITION. NOP and data transfer (40_nop_and_transfer.md). Each meaning is a body run inside the step of
30_encoding.md R70: it sees PC at the opcode byte, and it sets PC. -/

namespace Sys2Proof.Machine

/-- NOP (R100): PC advances by 1. -/
def execNop (s : State) : Result := .next (s.advance 1)

/-- LDA a (R102): AC <- M[a]; PC advances by 2. -/
def execLda (a : Byte) (s : State) : Result := .next ((s.setAc (s.memOperand a)).advance 2)

/-- STA a (R104): M[a] <- AC; PC advances by 2. -/
def execSta (a : Byte) (s : State) : Result := .next ((s.memWrite (directAddr a) s.ac).advance 2)

end Sys2Proof.Machine
end

