-- ==== Sys2Proof/Machine/Dispatch.lean ====
section
/-! DEFINITION. One arm per instruction: the body that the step of 30_encoding.md R70 runs. -/

namespace Sys2Proof.Machine

/-- The meaning of each instruction. -/
def exec (i : Instr) (s : State) : Host.Outcome State Fault Refusal :=
  match i with
  -- 40_nop_and_transfer.md
  | .nop => Sys2Proof.Machine.execNop s
  | .lda a => Sys2Proof.Machine.execLda a s
  | .sta a => Sys2Proof.Machine.execSta a s
  -- 41_alu.md
  | .add a => Sys2Proof.Machine.execAdd a s
  | .sub a => Sys2Proof.Machine.execSub a s
  | .mul a => Sys2Proof.Machine.execMul a s
  | .div a => Sys2Proof.Machine.execDiv a s
  | .or a => Sys2Proof.Machine.execOr a s
  | .and a => Sys2Proof.Machine.execAnd a s
  | .not => Sys2Proof.Machine.execNot s
  -- 42_control.md
  | .jmp a => Sys2Proof.Machine.execJmp a s
  | .jn a => Sys2Proof.Machine.execJn a s
  | .jz a => Sys2Proof.Machine.execJz a s
  | .hlt => Sys2Proof.Machine.execHlt s

end Sys2Proof.Machine
end

