-- ==== Sys2Proof/Machine/Cycle.lean ====
section
/-! DEFINITION. The instruction cycle of 30_encoding.md R70. -/

namespace Sys2Proof.Machine

/-- The cycle's fetch, decode and execute, once the step bound is passed: NSTEP counts the step, the bytes at PC decode, and the
body runs. A byte that is no opcode raises UnknownOpcode with its address, and PC, AC and M stay (60_exceptions.md R142). -/
def fetchDecodeExecute (s : State) : Result :=
  match decode s.params.opcodeMap s.fetchBytes with
  | .ok (i, _) => exec i s.countStep
  | .error _ => .next (s.countStep.raise (.unknownOpcode s.pc (s.memRead s.pc)))

/-- One step of the core: defined only while RS = RUNNING (10_state.md R28); the host's bound is looked at before the fetch
(60_exceptions.md R148, R144). -/
def cycle (s : State) : Result :=
  match s.rs with
  | .running => if s.boundReached then .next (s.stop .stepLimit) else fetchDecodeExecute s
  | .halted => .fault (.runEnded .halted)
  | .unknownOpcode => .fault (.runEnded .unknownOpcode)
  | .stepLimit => .fault (.runEnded .stepLimit)

/-- The state with the bytes `bs` stored from address `a` on, addresses mod 256 (20_memory.md R44). -/
def State.storeBytes (s : State) (a : Byte) : List Byte → State
  | [] => s
  | b :: bs => (s.memWrite a b).storeBytes (addrAdd a 1) bs

end Sys2Proof.Machine
end

