-- ==== Sys2Proof/Machine/Step.lean ====
section
/-! DEFINITION. The step function, and placing an instruction where the next step fetches. -/

namespace Sys2Proof.Machine

/-- One step: the instruction cycle of 30_encoding.md R70. -/
def step : State → Host.Outcome State Fault Refusal := cycle

/-- The state with an instruction's word, numbered as spec/opcode_table.json numbers it, stored at PC and PC + 1. RS is
RUNNING in it, as it is after the load that brings a program in (log entry 4). -/
def State.withFetchWord (s : State) (nbits w : Nat) : State :=
  { s.storeBytes s.pc (tableWordBytes nbits w) with rs := .running }

end Sys2Proof.Machine
end

