-- ==== Sys2Proof/Machine/Run.lean ====
section
/-! DEFINITION. A run: the step repeated while RS = RUNNING (60_exceptions.md R158). -/

namespace Sys2Proof.Machine

/-- The state after at most `n` steps: a run stays where it ended (60_exceptions.md R146). -/
def runFor : Nat → State → State
  | 0, s => s
  | n + 1, s =>
    match step s with
    | .next t => runFor n t
    | .fault _ => s
    | .refused _ => s

end Sys2Proof.Machine
end

