-- ==== Sys2Proof/Machine/Accesses.lean ====
section
/-! DEFINITION. The accesses a step makes to M, in order: the table of 20_memory.md R41, written from the table and not from
`exec`. It is an observation of a step; the step does not read it. -/

namespace Sys2Proof.Machine

/-- The kinds of access of 20_memory.md R41. -/
inductive AccessKind where
  | opcodeFetch
  | operandFetch
  | dataRead
  | dataWrite
deriving DecidableEq, Repr

/-- One access of one byte: the byte read, or the byte written. -/
structure Access where
  kind : AccessKind
  addr : Byte
  value : Byte
deriving DecidableEq, Repr

/-- Every access but the data write is a read (20_memory.md R41). -/
def Access.isRead (x : Access) : Bool :=
  match x.kind with
  | .opcodeFetch => true
  | .operandFetch => true
  | .dataRead => true
  | .dataWrite => false

/-- A read access of `s` at `a`. -/
def State.readAccess (s : State) (kind : AccessKind) (a : Byte) : Access := ⟨kind, a, s.memRead a⟩

/-- The data access of an instruction with operand `a` (20_memory.md R41): a read for LDA and the ALU instructions, a
write for STA, none for the jumps and the F0 instructions. -/
def dataAccess (s : State) (a : Byte) : Mnemonic → List Access
  | .nop => []
  | .lda => [s.readAccess .dataRead a]
  | .sta => [⟨.dataWrite, a, s.ac⟩]
  | .add => [s.readAccess .dataRead a]
  | .sub => [s.readAccess .dataRead a]
  | .mul => [s.readAccess .dataRead a]
  | .div => [s.readAccess .dataRead a]
  | .or  => [s.readAccess .dataRead a]
  | .and => [s.readAccess .dataRead a]
  | .not => []
  | .jmp => []
  | .jn  => []
  | .jz  => []
  | .hlt => []

/-- The accesses of an instruction fetched at PC: opcode fetch, operand fetch, data access (20_memory.md R41, R49). An opcode
byte that is no opcode makes the opcode fetch alone. -/
def instrAccesses (s : State) : List Access :=
  s.readAccess .opcodeFetch s.pc ::
    match decodeOpcode s.params.opcodeMap (s.memRead s.pc) with
    | none => []
    | some m =>
      match formatOf m with
      | .f0 => []
      | .f1 => s.readAccess .operandFetch (operandAddr s.pc) :: dataAccess s (s.memRead (operandAddr s.pc)) m

/-- The accesses of one step: none where no step is defined, and none where the step bound stops the run before the fetch
(60_exceptions.md R148). -/
def stepAccesses (s : State) : List Access :=
  if s.rs = .running ∧ s.boundReached = false then instrAccesses s else []

/-- The accesses of at most `n` steps, in program order (20_memory.md R49). -/
def runAccesses : Nat → State → List Access
  | 0, _ => []
  | n + 1, s =>
    stepAccesses s ++
      match step s with
      | .next t => runAccesses n t
      | .fault _ => []
      | .refused _ => []

/-- The byte of the last write to `a` among accesses in order, if there is one. -/
def lastWrite (a : Byte) : List Access → Option Byte
  | [] => none
  | x :: xs =>
    match lastWrite a xs with
    | some v => some v
    | none => if x.isRead = false ∧ x.addr = a then some x.value else none

end Sys2Proof.Machine
end

