-- ==== Sys2Proof/Machine/Loader.lean ====
section
/-! DEFINITION. The image loader (70_reset_and_hazards.md R160 to R163): load is the core's only reset. -/

namespace Sys2Proof.Machine

/-- The header an image begins with (70_reset_and_hazards.md R160); the loader does not look at it (R161). -/
def imageHeader : List Byte := [0x03, 0x4E, 0x44, 0x52]

/-- `LoadError` of 70_reset_and_hazards.md R161. -/
inductive LoadError where
  /-- The image is shorter than 260 bytes. -/
  | imageTooSmall
deriving DecidableEq, Repr

/-- The memory whose bytes from address `k` on are `bs`, in canonical form. -/
def memoryFrom : Nat → List Byte → Memory
  | _, [] => []
  | k, b :: bs => Memory.put k b (memoryFrom (k + 1) bs)

/-- The 256-byte payload of an image: bytes 4 to 259; the bytes after it are ignored (70_reset_and_hazards.md R160,
R161). -/
def payload (image : List Byte) : List Byte := (image.drop headerSize).take memSize

/-- `load(img)` of 70_reset_and_hazards.md R162, under the named parameters `p`: too short an image is refused, and a longer one
gives a fresh state. The header is not checked (R161; the spec's decisions D12 and D13, log entry 20). -/
def load (p : Params) (image : List Byte) : Except LoadError State :=
  if image.length < imageSize then .error .imageTooSmall
  else .ok
    { ac := 0x00
      pc := 0x00
      mem := memoryFrom 0 (payload image)
      rs := .running
      ev := []
      nstep := 0
      params := p }

end Sys2Proof.Machine
end

