-- ==== Sys2Proof/Machine/Assembler.lean ====
section
/-! DEFINITION. The assembler of 30_encoding.md R80 to R99: source text to a 260-byte image. It is software outside the hardware
block (00_scope.md R4 (c)); no step uses it. Text is a list of characters. -/

namespace Sys2Proof.Machine

/-- A word of the source text. -/
abbrev Token := List Char

/-- The assembler's errors (30_encoding.md R94). -/
inductive AsmErrorKind where
  | invalidLiteral
  | unknownOpcode
  | unresolvedSymbol
  | syntaxError
  | duplicateSymbol
  | arityMismatch
  | overlap
  | dataOverflow
  | codeOverflow
deriving DecidableEq, Repr

/-- An error names the offending line (30_encoding.md R94); lines are counted from 1. -/
structure AsmError where
  kind : AsmErrorKind
  line : Nat
deriving DecidableEq, Repr

/-- A line with its number. -/
structure SourceLine where
  number : Nat
  tokens : List Token
deriving DecidableEq, Repr

/-- The text cut at each line feed (DESIGN CHOICE: the line feed alone ends a line, log entry 21). -/
def splitLines : List Char → List (List Char)
  | [] => [[]]
  | c :: cs =>
    if c = '\n' then [] :: splitLines cs
    else
      match splitLines cs with
      | [] => [[c]]
      | l :: ls => (c :: l) :: ls

/-- A space or a tab (30_encoding.md R81). -/
def isBlank (c : Char) : Bool := c == ' ' || c == '\t'

/-- The pieces between blanks, empty ones included. -/
def splitBlanks : List Char → List Token
  | [] => [[]]
  | c :: cs =>
    if isBlank c then [] :: splitBlanks cs
    else
      match splitBlanks cs with
      | [] => [[c]]
      | t :: ts => (c :: t) :: ts

/-- The tokens of a line: its comment removed, then split at runs of blanks (30_encoding.md R81). -/
def tokensOf (line : List Char) : List Token :=
  (splitBlanks (line.takeWhile (fun c => c != ';'))).filter (fun t => !t.isEmpty)

/-- The lines that are not ignored, numbered from 1 (30_encoding.md R81). -/
def sourceLines (text : List Char) : List SourceLine :=
  ((splitLines text).mapIdx (fun k l => ⟨k + 1, tokensOf l⟩)).filter (fun l => !l.tokens.isEmpty)

/-- Mnemonics, directives and DB are matched without regard to case (30_encoding.md R90, R96). -/
def upper (t : Token) : Token := t.map Char.toUpper

/-- The spelling of a mnemonic (30_encoding.md R62). -/
def spelling : Mnemonic → Token
  | .nop => ['N', 'O', 'P']
  | .lda => ['L', 'D', 'A']
  | .sta => ['S', 'T', 'A']
  | .add => ['A', 'D', 'D']
  | .sub => ['S', 'U', 'B']
  | .mul => ['M', 'U', 'L']
  | .div => ['D', 'I', 'V']
  | .or  => ['O', 'R']
  | .and => ['A', 'N', 'D']
  | .not => ['N', 'O', 'T']
  | .jmp => ['J', 'M', 'P']
  | .jn  => ['J', 'N']
  | .jz  => ['J', 'Z']
  | .hlt => ['H', 'L', 'T']

/-- The mnemonic a token spells (30_encoding.md R90). -/
def mnemonicOf (t : Token) : Option Mnemonic := Mnemonic.all.find? (fun m => spelling m == upper t)

/-- The keyword DB, in any case (30_encoding.md R83, R96). -/
def isDb (t : Token) : Bool := upper t == ['D', 'B']

/-- The directive .DATA, in any case (30_encoding.md R82, R96). -/
def isDataDirective (t : Token) : Bool := upper t == ['.', 'D', 'A', 'T', 'A']

/-- The directive .CODE, in any case (30_encoding.md R82, R96). -/
def isCodeDirective (t : Token) : Bool := upper t == ['.', 'C', 'O', 'D', 'E']

/-- The directive .ORG, in any case (30_encoding.md R86, R96). -/
def isOrgDirective (t : Token) : Bool := upper t == ['.', 'O', 'R', 'G']

/-- A name: a letter or `_`, then letters, digits and `_`; no mnemonic and not DB (30_encoding.md R96). Case-sensitive: names
are compared as they stand. -/
def isName : Token → Bool
  | [] => false
  | c :: cs =>
    (c.isAlpha || c == '_') && cs.all (fun d => d.isAlphanum || d == '_') &&
      (mnemonicOf (c :: cs)).isNone && !isDb (c :: cs)

/-- The value of a decimal digit. -/
def decimalDigit (c : Char) : Option Nat := if c.isDigit then some (c.toNat - '0'.toNat) else none

/-- The value of a hex digit, in either case. -/
def hexDigit (c : Char) : Option Nat :=
  if c.isDigit then some (c.toNat - '0'.toNat)
  else if 'A' ≤ c.toUpper ∧ c.toUpper ≤ 'F' then some (c.toUpper.toNat - 'A'.toNat + 10)
  else none

/-- The number the digits after `acc` spell. -/
def digitsFrom (digit : Char → Option Nat) (base : Nat) : Nat → List Char → Option Nat
  | acc, [] => some acc
  | acc, c :: cs =>
    match digit c with
    | none => none
    | some d => digitsFrom digit base (acc * base + d) cs

/-- One or more digits. -/
def digits (digit : Char → Option Nat) (base : Nat) : List Char → Option Nat
  | [] => none
  | c :: cs => digitsFrom digit base 0 (c :: cs)

/-- The number a literal token spells, before the range check (30_encoding.md R84). -/
def literalNumber : Token → Option Nat
  | '0' :: 'x' :: ds => digits hexDigit 16 ds
  | '0' :: 'X' :: ds => digits hexDigit 16 ds
  | ds => digits decimalDigit 10 ds

/-- A literal: decimal or hexadecimal, in 0..255 (30_encoding.md R84; the spec's decision D21). -/
def literal (t : Token) : Option Byte :=
  match literalNumber t with
  | none => none
  | some n => if n < 256 then some (BitVec.ofNat 8 n) else none

/-- The sections a source text has (30_encoding.md R82). -/
inductive SourceSection where
  | data
  | code
deriving DecidableEq, Repr

/-- A data symbol with its address and its initial value (30_encoding.md R83). -/
structure DataSymbol where
  name : Token
  addr : Nat
  value : Byte
deriving DecidableEq, Repr

/-- A label with the cursor value it was recorded at (30_encoding.md R86). -/
structure Label where
  name : Token
  addr : Nat
deriving DecidableEq, Repr

/-- An instruction laid out at an address, its operand still a name (30_encoding.md R86). -/
structure PlacedInstr where
  line : Nat
  addr : Nat
  mnemonic : Mnemonic
  operand : Option Token
deriving DecidableEq, Repr

/-- Where pass 1 stands: the open section, the data symbols so far in order of declaration, and the code lines for pass 2. -/
structure Pass1 where
  current : Option SourceSection
  data : List DataSymbol
  code : List SourceLine
deriving DecidableEq, Repr

/-- Where pass 2 stands: the cursor, the labels and the instructions so far. -/
structure Pass2 where
  cursor : Nat
  labels : List Label
  code : List PlacedInstr
deriving DecidableEq, Repr

/-- A data value: a literal, or 0 for the placeholder `?` (30_encoding.md R83, 90_conflicts.md C3). -/
def dataValue (t : Token) : Option Byte := if t = ['?'] then some 0 else literal t

/-- A data line: `name DB value` or `name DB ?`; the k-th symbol gets address DATA_BASE + k (30_encoding.md R83, R84, R87, R93).
The order of the checks is a DESIGN CHOICE (log entry 22). -/
def dataLine (data : List DataSymbol) (l : SourceLine) : Except AsmError (List DataSymbol) :=
  match l.tokens with
  | [name, db, value] =>
    if isDb db && isName name then
      match dataValue value with
      | none => .error ⟨.invalidLiteral, l.number⟩
      | some v =>
        if data.any (fun d => d.name == name) then .error ⟨.duplicateSymbol, l.number⟩
        else if dataBase + data.length < memSize then .ok (data ++ [⟨name, dataBase + data.length, v⟩])
        else .error ⟨.dataOverflow, l.number⟩
    else .error ⟨.syntaxError, l.number⟩
  | _ => .error ⟨.syntaxError, l.number⟩

/-- A line whose first token begins with `.`: `.DATA` and `.CODE` stand alone and switch the section, `.ORG` is a line of a code
section, and everything else is a syntax error (30_encoding.md R82, R83, R85). -/
def directiveLine (st : Pass1) (t : Token) (l : SourceLine) : Except AsmError Pass1 :=
  if isDataDirective t && l.tokens.length == 1 then .ok { st with current := some .data }
  else if isCodeDirective t && l.tokens.length == 1 then .ok { st with current := some .code }
  else if isOrgDirective t && l.tokens.length == 2 && st.current == some .code then
    .ok { st with code := st.code ++ [l] }
  else .error ⟨.syntaxError, l.number⟩

/-- One line of pass 1: sections and data symbols; code lines are kept for pass 2 (30_encoding.md R80, R82). -/
def pass1Line (st : Pass1) (l : SourceLine) : Except AsmError Pass1 :=
  match l.tokens with
  | [] => .ok st
  | t :: _ =>
    if t.head? == some '.' then directiveLine st t l
    else
      match st.current with
      | none => .error ⟨.syntaxError, l.number⟩
      | some .data =>
        match dataLine st.data l with
        | .error e => .error e
        | .ok data => .ok { st with data := data }
      | some .code => .ok { st with code := st.code ++ [l] }

/-- The number of bytes of a placed instruction (30_encoding.md R65). -/
def PlacedInstr.size (p : PlacedInstr) : Nat := (formatOf p.mnemonic).length

/-- The addresses of its bytes. -/
def PlacedInstr.addrs (p : PlacedInstr) : List Nat := List.range' p.addr p.size

/-- The addresses taken: data symbols, and the code bytes so far. -/
def usedAddrs (data : List DataSymbol) (code : List PlacedInstr) : List Nat :=
  data.map DataSymbol.addr ++ code.flatMap PlacedInstr.addrs

/-- The instruction at the cursor: its bytes stay below 0x100 (R93) and fall on no taken address (R92); the cursor moves past
them (30_encoding.md R86). The order of the two checks is a DESIGN CHOICE (log entry 22). -/
def placeInstr (data : List DataSymbol) (st : Pass2) (p : PlacedInstr) : Except AsmError Pass2 :=
  if p.addr + p.size > memSize then .error ⟨.codeOverflow, p.line⟩
  else if p.addrs.any (fun a => a ∈ usedAddrs data st.code) then .error ⟨.overlap, p.line⟩
  else .ok { st with cursor := p.addr + p.size, code := st.code ++ [p] }

/-- `.ORG literal` (30_encoding.md R86). -/
def orgLine (st : Pass2) (l : SourceLine) : List Token → Except AsmError Pass2
  | [v] =>
    match literal v with
    | none => .error ⟨.invalidLiteral, l.number⟩
    | some a => .ok { st with cursor := a.toNat }
  | _ => .error ⟨.syntaxError, l.number⟩

/-- `name:` alone on the line (30_encoding.md R85, R86); one namespace with the data symbols (R87). A name that is not one is a
SyntaxError (DESIGN CHOICE, log entry 22). -/
def labelLine (data : List DataSymbol) (st : Pass2) (name : Token) (l : SourceLine) : List Token → Except AsmError Pass2
  | [] =>
    if !isName name then .error ⟨.syntaxError, l.number⟩
    else if data.any (fun d => d.name == name) || st.labels.any (fun b => b.name == name) then
      .error ⟨.duplicateSymbol, l.number⟩
    else .ok { st with labels := st.labels ++ [⟨name, st.cursor⟩] }
  | _ => .error ⟨.syntaxError, l.number⟩

/-- `MNEMONIC` or `MNEMONIC name` (30_encoding.md R85, R90, R91). The operand token of an F1 instruction is taken as it stands and
looked up later: one that is no name, numeric (R85) or not, then answers UnresolvedSymbol. For the tokens that are not numeric, such as
`JMP HLT` and `LDA X:`, that class is a DESIGN CHOICE (log entry 26). -/
def instrLine (data : List DataSymbol) (st : Pass2) (t : Token) (l : SourceLine) (rest : List Token) :
    Except AsmError Pass2 :=
  match mnemonicOf t with
  | none => .error ⟨.unknownOpcode, l.number⟩
  | some m =>
    match formatOf m, rest with
    | .f0, [] => placeInstr data st ⟨l.number, st.cursor, m, none⟩
    | .f1, [name] => placeInstr data st ⟨l.number, st.cursor, m, some name⟩
    | .f0, _ => .error ⟨.arityMismatch, l.number⟩
    | .f1, _ => .error ⟨.arityMismatch, l.number⟩

/-- One code line of pass 2: `.ORG`, a label or an instruction (30_encoding.md R85). -/
def pass2Line (data : List DataSymbol) (st : Pass2) (l : SourceLine) : Except AsmError Pass2 :=
  match l.tokens with
  | [] => .ok st
  | t :: rest =>
    if t.head? == some '.' then orgLine st l rest
    else if t.getLast? == some ':' then labelLine data st t.dropLast l rest
    else instrLine data st t l rest

/-- What the two passes find: symbols, labels, and instructions at their addresses (30_encoding.md R80). -/
structure Layout where
  data : List DataSymbol
  labels : List Label
  code : List PlacedInstr
deriving DecidableEq, Repr

/-- A pass over the lines in order; the first error ends it (30_encoding.md R94). -/
def overLines {σ : Type} (f : σ → SourceLine → Except AsmError σ) : σ → List SourceLine → Except AsmError σ
  | st, [] => .ok st
  | st, l :: ls =>
    match f st l with
    | .error e => .error e
    | .ok st' => overLines f st' ls

/-- Pass 1, then pass 2 from cursor 0 (30_encoding.md R80, R86). -/
def layout (text : List Char) : Except AsmError Layout :=
  match overLines pass1Line ⟨none, [], []⟩ (sourceLines text) with
  | .error e => .error e
  | .ok p1 =>
    match overLines (pass2Line p1.data) ⟨0, [], []⟩ p1.code with
    | .error e => .error e
    | .ok p2 => .ok ⟨p1.data, p2.labels, p2.code⟩

/-- The address of a name in the merged table of data symbols and labels (30_encoding.md R89). -/
def resolve (L : Layout) (name : Token) : Option Nat :=
  match L.data.find? (fun d => d.name == name) with
  | some d => some d.addr
  | none =>
    match L.labels.find? (fun b => b.name == name) with
    | some b => some b.addr
    | none => none

/-- The instruction a placed instruction becomes once its operand is resolved; the operand byte is the address mod 256 (a
label recorded at 0x100 gives 0x00: DEDUCED from 20_memory.md R43, log entry 23). -/
def resolveInstr (L : Layout) (p : PlacedInstr) : Except AsmError Instr :=
  match p.operand with
  | none => .ok (instrOf p.mnemonic 0)
  | some name =>
    match resolve L name with
    | none => .error ⟨.unresolvedSymbol, p.line⟩
    | some a => .ok (instrOf p.mnemonic (BitVec.ofNat 8 a))

/-- The bytes `bs` written from address `a` on. -/
def writeBytes (mem : List Byte) (a : Nat) : List Byte → List Byte
  | [] => mem
  | b :: bs => writeBytes (mem.set a b) (a + 1) bs

/-- Memory with every data symbol's initial value written (30_encoding.md R88, step 3). -/
def emitData (mem : List Byte) : List DataSymbol → List Byte
  | [] => mem
  | d :: ds => emitData (mem.set d.addr d.value) ds

/-- Memory with every instruction's bytes written (30_encoding.md R88, step 4); the same map as the decoder's (R63 (c)). -/
def emitCode (map : OpcodeMap) (L : Layout) : List Byte → List PlacedInstr → Except AsmError (List Byte)
  | mem, [] => .ok mem
  | mem, p :: ps =>
    match resolveInstr L p with
    | .error e => .error e
    | .ok i => emitCode map L (writeBytes mem p.addr (encode map i)) ps

/-- The image: header, data, code; unused memory is 0x00 (30_encoding.md R88). -/
def emit (map : OpcodeMap) (L : Layout) : Except AsmError (List Byte) :=
  match emitCode map L (emitData (List.replicate memSize 0x00) L.data) L.code with
  | .error e => .error e
  | .ok mem => .ok (imageHeader ++ mem)

/-- `assemble(source_text) -> memory_image | AssemblyError` (30_encoding.md R80). -/
def assemble (map : OpcodeMap) (text : List Char) : Except AsmError (List Byte) :=
  match layout text with
  | .error e => .error e
  | .ok L => emit map L

end Sys2Proof.Machine
end

