-- ==== Sys2Proof/Machine/Report.lean ====
section
/-! DEFINITION. What the host reads: the codes of 10_state.md R27 and 60_exceptions.md R141, and the final-state report of
60_exceptions.md R159. -/

namespace Sys2Proof.Machine

/-- The codes of RS (10_state.md R27; the spec's decision D10). -/
def RunStatus.code : RunStatus → Nat
  | .running => 0
  | .halted => 1
  | .unknownOpcode => 2
  | .stepLimit => 3

/-- The codes of EV's entries (60_exceptions.md R141; the spec's decision D19). -/
def Event.code : Event → Nat
  | .divisionByZero _ => 1
  | .unknownOpcode _ _ => 2

/-- The info of EV's entries: pc, or (pc, byte) (60_exceptions.md R141). -/
def Event.info : Event → List Byte
  | .divisionByZero pc => [pc]
  | .unknownOpcode pc byte => [pc, byte]

/-- The contents of the final-state report (60_exceptions.md R159): the accumulator, the program counter, the memory in rows of
16 bytes, and the conditions; with RS, which 60_exceptions.md R158 lists in the dump. -/
structure Report where
  accumulator : Byte
  programCounter : Byte
  memoryRows : List (List Byte)
  status : RunStatus
  conditions : List Event
deriving DecidableEq, Repr

/-- Row `r` of the dump: the 16 bytes from address 16 * r on. -/
def State.memoryRow (s : State) (r : Nat) : List Byte :=
  (List.range 16).map (fun c => s.memRead (BitVec.ofNat 8 (16 * r + c)))

/-- The dump (60_exceptions.md R156, R158, R159): a read that changes nothing, at any time. -/
def State.dump (s : State) : Report where
  accumulator := s.ac
  programCounter := s.pc
  memoryRows := (List.range 16).map s.memoryRow
  status := s.rs
  conditions := s.ev

/-- REPORT_FORMAT (00_scope.md R7): the text layout, left open (D18). An uninterpreted constant: nothing about the text can be
proved (safe, log entry 18). -/
opaque reportFormat : Report → String

/-- The text of the final-state report. -/
def finalReport (s : State) : String := reportFormat s.dump

end Sys2Proof.Machine
end

