-- ==== Sys2Proof/Machine/Block.lean ====
section
/-! DEFINITION. The block around the core: the host's transactions of 00_scope.md R9 and 60_exceptions.md R158. -/

namespace Sys2Proof.Machine

/-- The block: its parameters, the CPU state if there is one (70_reset_and_hazards.md R164), and the result of the last load
(00_scope.md R9). -/
structure Block where
  /-- The named parameters the next load uses. -/
  params : Params
  /-- No state before the first successful load and after a failed load (70_reset_and_hazards.md R164). -/
  cpu : Option State
  /-- `load_error` of 00_scope.md R9. -/
  loadError : Option LoadError
deriving DecidableEq, Repr

/-- What the host may do (60_exceptions.md R158); the dump is `Block.dump`. -/
inductive HostAction where
  /-- Set MAX_STEPS, before a run. -/
  | setMaxSteps (k : Option Nat)
  /-- Load an image. -/
  | load (image : List Byte)
  /-- Ask for one step. -/
  | step
deriving DecidableEq, Repr

/-- Before the first load there is no CPU state (10_state.md R35). DESIGN CHOICE: `loadError` is none (log entry 14). -/
def Block.powerOn (p : Params) : Block where
  params := p
  cpu := none
  loadError := none

/-- A load discards the old state; a failed load leaves none (70_reset_and_hazards.md R162, R164; the spec's decision D14, log
entry 14). -/
def Block.load (b : Block) (image : List Byte) : Block :=
  match Machine.load b.params image with
  | .ok s => { b with cpu := some s, loadError := none }
  | .error e => { b with cpu := none, loadError := some e }

/-- One step of the core, where one is defined: there is a CPU state and its RS is RUNNING (10_state.md R28, R35). -/
def Block.step (b : Block) : Option Block :=
  match b.cpu with
  | none => none
  | some s =>
    match Machine.step s with
    | .next t => some { b with cpu := some t }
    | .fault _ => none
    | .refused _ => none

/-- MAX_STEPS becomes `k` before a run (60_exceptions.md R148, R158): for the next load, and for a state already loaded whose run
has not begun. A run that has begun keeps its bound (DESIGN CHOICE, log entry 10). -/
def Block.setMaxSteps (b : Block) (k : Option Nat) : Block :=
  { b with params := { b.params with maxSteps := k }, cpu := b.cpu.map (fun s => s.boundBeforeRun k) }

/-- One transaction; none where no step is defined. DESIGN CHOICE (log entry 25): a load is taken at any time, RS = RUNNING in the
middle of a run included, and replaces the state. 00_scope.md R9 gives load no condition and 60_exceptions.md R158 keeps the host
from writing AC, PC or M during a run; which of the two governs a load then, the spec leaves open. -/
def Block.act (b : Block) : HostAction → Option Block
  | .setMaxSteps k => some (b.setMaxSteps k)
  | .load image => some (b.load image)
  | .step => b.step

/-- What the host reads, if there is a CPU state (60_exceptions.md R156, R158). -/
def Block.dump (b : Block) : Option Report := b.cpu.map State.dump

end Sys2Proof.Machine
end

