-- ==== Sys2Proof/Machine/Latched.lean ====
section
/-! DEFINITION. The other machine 10_state.md R25 allows: N and Z kept as flip-flops updated on every write of AC, and read by
JN and JZ. `step` is the model; this one is here to be compared with it. -/

namespace Sys2Proof.Machine

/-- A state and its two flip-flops. -/
structure Latched where
  core : State
  n : Bool
  z : Bool
deriving DecidableEq, Repr

/-- The instructions that write AC (10_state.md R21). -/
def writesAc : Mnemonic → Bool
  | .nop => false
  | .lda => true
  | .sta => false
  | .add => true
  | .sub => true
  | .mul => true
  | .div => true
  | .or  => true
  | .and => true
  | .not => true
  | .jmp => false
  | .jn  => false
  | .jz  => false
  | .hlt => false

/-- The flip-flops agree with AC. -/
def Latched.inSync (l : Latched) : Prop := l.n = negative l.core.ac ∧ l.z = zero l.core.ac

/-- The flip-flops after an instruction with mnemonic `m` left the core in `t`: written where AC is written, kept elsewhere. -/
def Latched.update (l : Latched) (m : Mnemonic) (t : State) : Latched :=
  if writesAc m then { core := t, n := negative t.ac, z := zero t.ac } else { l with core := t }

/-- The core's next state after instruction `i` in the latched machine: JN and JZ look at the flip-flops, not at AC. -/
def Latched.body (l : Latched) (s : State) (i : Instr) : Result :=
  match i with
  | .jn a => .next (s.jumpIf l.n a)
  | .jz a => .next (s.jumpIf l.z a)
  | i => exec i s

/-- One step of the latched machine: the cycle of 30_encoding.md R70 over `Latched.body`. -/
def Latched.step (l : Latched) : Host.Outcome Latched Fault Refusal :=
  match l.core.rs with
  | .running =>
    if l.core.boundReached then .next { l with core := l.core.stop .stepLimit }
    else
      match decode l.core.params.opcodeMap l.core.fetchBytes with
      | .error _ =>
        .next { l with core := l.core.countStep.raise (.unknownOpcode l.core.pc (l.core.memRead l.core.pc)) }
      | .ok (i, _) =>
        match l.body l.core.countStep i with
        | .next t => .next (l.update i.mnemonic t)
        | .fault f => .fault f
        | .refused r => .refused r
  | .halted => .fault (.runEnded .halted)
  | .unknownOpcode => .fault (.runEnded .unknownOpcode)
  | .stepLimit => .fault (.runEnded .stepLimit)

end Sys2Proof.Machine
end

