-- ==== Sys2Proof/Safety.lean ====
section
/-! DEFINITION. The words claims use: how a run ended, what a next state keeps, and the invariant of the machine. -/

namespace Sys2Proof.Machine

/-- HALTED is the only normal final state (60_exceptions.md R146; the spec's decision D33). -/
def State.endedNormally (s : State) : Prop := s.rs = .halted

/-- UNKNOWN_OPCODE is a fault outcome, never a normal end (60_exceptions.md R146; D33). -/
def State.endedInFault (s : State) : Prop := s.rs = .unknownOpcode

/-- STEP_LIMIT is the host's stop and says nothing about the program (60_exceptions.md R146; D33). -/
def State.stoppedByHost (s : State) : Prop := s.rs = .stepLimit

/-- Every byte of memory reads the same. -/
def SameMemory (s t : State) : Prop := ∀ b : Byte, t.memRead b = s.memRead b

/-- The bytes `bs` stand in memory from address `a` on, addresses mod 256 (20_memory.md R43, R44). -/
def State.holdsAt (s : State) (a : Byte) (bs : List Byte) : Prop :=
  ∀ (k : Nat) (b : Byte), bs[k]? = some b → s.memRead (addrAdd a k) = b

/-- RS, EV, NSTEP and the parameters are the same. -/
def SameBookkeeping (s t : State) : Prop :=
  t.rs = s.rs ∧ t.ev = s.ev ∧ t.nstep = s.nstep ∧ t.params = s.params

/-- `t` is `s` but for AC and PC. -/
def OnlyAcPc (s t : State) : Prop := SameMemory s t ∧ SameBookkeeping s t

/-- The reports of UnknownOpcode in an event log. -/
def Event.isUnknown : Event → Bool
  | .divisionByZero _ => false
  | .unknownOpcode _ _ => true

/-- What RS says is borne out by the state: at HALTED, PC is still at a HLT byte; at UNKNOWN_OPCODE, PC is at a byte that is no
opcode and the last report, the only one of its kind, names both; at STEP_LIMIT, the bound is reached; and no
UnknownOpcode is reported in a run that did not end so (42_control.md R136, 60_exceptions.md R142, R146, R148). -/
def State.statusExplained (s : State) : Prop :=
  match s.rs with
  | .running => s.ev.all (fun e => !e.isUnknown) = true
  | .halted => s.ev.all (fun e => !e.isUnknown) = true ∧
      decodeOpcode s.params.opcodeMap (s.memRead s.pc) = some .hlt
  | .unknownOpcode => decodeOpcode s.params.opcodeMap (s.memRead s.pc) = none ∧
      ∃ before, before.all (fun e => !e.isUnknown) = true ∧ s.ev = before ++ [.unknownOpcode s.pc (s.memRead s.pc)]
  | .stepLimit => s.ev.all (fun e => !e.isUnknown) = true ∧ ∃ k, s.params.maxSteps = some k ∧ k ≤ s.nstep

/-- No more steps were counted than the bound allows (60_exceptions.md R148). -/
def State.withinBound (s : State) : Prop := ∀ k, s.params.maxSteps = some k → s.nstep ≤ k

/-- The invariant every step keeps: canonical memory (20_memory.md R40), at most one report a step (60_exceptions.md R144), the
step bound (R148), and a run status the state bears out (R146). -/
def State.inv (s : State) : Prop :=
  Memory.wf s.mem ∧ s.ev.length ≤ s.nstep ∧ s.withinBound ∧ s.statusExplained

/-- Two states that differ at most in EV and NSTEP, which no instruction reads (10_state.md R29, R30). -/
def SameCore (s t : State) : Prop :=
  t.ac = s.ac ∧ t.pc = s.pc ∧ t.mem = s.mem ∧ t.rs = s.rs ∧ t.params = s.params

end Sys2Proof.Machine
end

