-- ==== Sys2Proof/Certificates/Slice0/Obligations.lean ====
section
/-! DEFINITION. The statements for the provers. Where a statement rests on a decision of the spec's own (D<n> of
92_eei_decisions.md) or on a choice of the model (a log entry), its docstring names it. -/

open Sys2Proof Sys2Proof.Machine

/-! ## What each instruction does, and that it completes -/

/-- 40_nop_and_transfer.md R100: NOP advances PC by 1 mod 256 and changes nothing else, in every state. The opcode byte 0x00 is
the default OPCODE_MAP's (D2, log entry 1). -/
def Obligations.NopAdvancesPcByOne : Prop :=
  encode defaultOpcodeMap .nop = [0x00] ∧
  ∀ s : State, ∃ t, exec .nop s = .next t ∧
    t.pc.toNat = (s.pc.toNat + 1) % 256 ∧ t.ac = s.ac ∧ OnlyAcPc s t

/-- 40_nop_and_transfer.md R102: LDA a loads M[a] into AC and advances PC by 2 mod 256; memory, RS, EV and NSTEP stay. The opcode
byte 0x20 is the default OPCODE_MAP's (D2, log entry 1). -/
def Obligations.LdaLoadsMemoryIntoAc : Prop :=
  (∀ a, encode defaultOpcodeMap (.lda a) = [0x20, a]) ∧
  ∀ (a : Byte) (s : State), ∃ t, exec (.lda a) s = .next t ∧
    t.ac = s.memRead a ∧ t.pc.toNat = (s.pc.toNat + 2) % 256 ∧ OnlyAcPc s t

/-- 40_nop_and_transfer.md R104: STA a stores AC at `directAddr a` and advances PC by 2 mod 256. In a canonical memory (the
invariant `State.inv`) that byte reads as AC and every other byte reads as before; AC, RS, EV and NSTEP stay. The opcode byte 0x10
is the default OPCODE_MAP's (D2, log entry 1). -/
def Obligations.StaStoresAcAndNothingElse : Prop :=
  (∀ a, encode defaultOpcodeMap (.sta a) = [0x10, a]) ∧
  ∀ (a : Byte) (s : State), ∃ t, exec (.sta a) s = .next t ∧
    t.ac = s.ac ∧ t.pc.toNat = (s.pc.toNat + 2) % 256 ∧ SameBookkeeping s t ∧
    (Memory.wf s.mem →
      t.memRead (directAddr a) = s.ac ∧ ∀ b, directAddr a ≠ b → t.memRead b = s.memRead b)

/-- 41_alu.md R110: ADD a leaves the sum of AC and M[a] mod 256 in AC and advances PC by 2 mod 256; nothing else changes. The
opcode byte 0x30 is the default OPCODE_MAP's (D2, log entry 1). -/
def Obligations.AddWrapsMod256 : Prop :=
  (∀ a, encode defaultOpcodeMap (.add a) = [0x30, a]) ∧
  ∀ (a : Byte) (s : State), ∃ t, exec (.add a) s = .next t ∧
    t.ac.toNat = (s.ac.toNat + (s.memRead a).toNat) % 256 ∧
    t.pc.toNat = (s.pc.toNat + 2) % 256 ∧ OnlyAcPc s t

/-- 41_alu.md R112: SUB a leaves AC minus M[a], mod 256 and non-negative, in AC and advances PC by 2 mod 256; nothing else changes.
The opcode byte 0x70 is the default OPCODE_MAP's (D2, log entry 1). -/
def Obligations.SubWrapsMod256 : Prop :=
  (∀ a, encode defaultOpcodeMap (.sub a) = [0x70, a]) ∧
  ∀ (a : Byte) (s : State), ∃ t, exec (.sub a) s = .next t ∧
    (t.ac.toNat : Int) = ((s.ac.toNat : Int) - ((s.memRead a).toNat : Int)) % 256 ∧
    t.pc.toNat = (s.pc.toNat + 2) % 256 ∧ OnlyAcPc s t

/-- 41_alu.md R114: MUL a leaves the low 8 bits of the unsigned product of AC and M[a] in AC and advances PC by 2 mod 256;
nothing else changes. The opcode byte 0xC0 is the default OPCODE_MAP's (D2, log entry 1). -/
def Obligations.MulWrapsMod256 : Prop :=
  (∀ a, encode defaultOpcodeMap (.mul a) = [0xC0, a]) ∧
  ∀ (a : Byte) (s : State), ∃ t, exec (.mul a) s = .next t ∧
    t.ac.toNat = (s.ac.toNat * (s.memRead a).toNat) % 256 ∧
    t.pc.toNat = (s.pc.toNat + 2) % 256 ∧ OnlyAcPc s t

/-- 41_alu.md R116: DIV a advances PC by 2 mod 256 in both cases. With M[a] not 0 it leaves the unsigned quotient, rounded toward
zero, in AC and reports nothing; with M[a] = 0 it leaves AC and appends DivisionByZero with the address of the DIV opcode to EV, and RS
stays. Memory and NSTEP stay. The opcode byte 0xD0 is the default OPCODE_MAP's (D2, log entry 1); a report is an entry of EV by D8
(log entry 12). -/
def Obligations.DivQuotientOrReport : Prop :=
  (∀ a, encode defaultOpcodeMap (.div a) = [0xD0, a]) ∧
  ∀ (a : Byte) (s : State), ∃ t, exec (.div a) s = .next t ∧
    t.pc.toNat = (s.pc.toNat + 2) % 256 ∧ SameMemory s t ∧ t.rs = s.rs ∧ t.nstep = s.nstep ∧ t.params = s.params ∧
    (s.memRead a ≠ 0#8 → t.ac.toNat = s.ac.toNat / (s.memRead a).toNat ∧ t.ev = s.ev) ∧
    (s.memRead a = 0#8 → t.ac = s.ac ∧ t.ev = s.ev ++ [.divisionByZero s.pc])

/-- 41_alu.md R118: OR a leaves the bitwise OR of AC and M[a] in AC and advances PC by 2 mod 256; nothing else changes. The opcode
byte 0x40 is the default OPCODE_MAP's (D2, log entry 1). -/
def Obligations.OrIsBitwise : Prop :=
  (∀ a, encode defaultOpcodeMap (.or a) = [0x40, a]) ∧
  ∀ (a : Byte) (s : State), ∃ t, exec (.or a) s = .next t ∧
    (∀ k, t.ac.getLsbD k = (s.ac.getLsbD k || (s.memRead a).getLsbD k)) ∧
    t.pc.toNat = (s.pc.toNat + 2) % 256 ∧ OnlyAcPc s t

/-- 41_alu.md R120: AND a leaves the bitwise AND of AC and M[a] in AC and advances PC by 2 mod 256; nothing else changes. The
opcode byte 0x50 is the default OPCODE_MAP's (D2, log entry 1). -/
def Obligations.AndIsBitwise : Prop :=
  (∀ a, encode defaultOpcodeMap (.and a) = [0x50, a]) ∧
  ∀ (a : Byte) (s : State), ∃ t, exec (.and a) s = .next t ∧
    (∀ k, t.ac.getLsbD k = (s.ac.getLsbD k && (s.memRead a).getLsbD k)) ∧
    t.pc.toNat = (s.pc.toNat + 2) % 256 ∧ OnlyAcPc s t

/-- NOT leaves the bitwise complement of AC, 255 - AC, in AC and advances PC by NOT_PC_ADVANCE (1 or 2) mod 256; nothing else
changes. 41_alu.md R122, whose PC advance is the spec's decision D4 on conflict C1 (log entry 9); the opcode byte 0x60 is the
default OPCODE_MAP's (D2, log entry 1). -/
def Obligations.NotComplementsAc : Prop :=
  encode defaultOpcodeMap .not = [0x60] ∧ defaultParams.notPcAdvance = .one ∧
  ∀ s : State, ∃ t, exec .not s = .next t ∧
    t.ac.toNat = 255 - s.ac.toNat ∧ (∀ k < 8, t.ac.getLsbD k = !s.ac.getLsbD k) ∧
    (s.params.notPcAdvance = .one → t.pc.toNat = (s.pc.toNat + 1) % 256) ∧
    (s.params.notPcAdvance = .two → t.pc.toNat = (s.pc.toNat + 2) % 256) ∧ OnlyAcPc s t

/-- 42_control.md R130: JMP a sets PC to a; nothing else changes. The opcode byte 0x80 is the default OPCODE_MAP's (D2, log
entry 1). -/
def Obligations.JmpSetsPc : Prop :=
  (∀ a, encode defaultOpcodeMap (.jmp a) = [0x80, a]) ∧
  ∀ (a : Byte) (s : State), ∃ t, exec (.jmp a) s = .next t ∧ t.pc = a ∧ t.ac = s.ac ∧ OnlyAcPc s t

/-- 42_control.md R132: JN a sets PC to a where AC is at least 128 (bit 7 set), and advances PC by 2 mod 256 where it is not;
nothing else changes. The opcode byte 0x90 is the default OPCODE_MAP's (D2, log entry 1). -/
def Obligations.JnJumpsIffBit7 : Prop :=
  (∀ a, encode defaultOpcodeMap (.jn a) = [0x90, a]) ∧
  ∀ (a : Byte) (s : State), ∃ t, exec (.jn a) s = .next t ∧ t.ac = s.ac ∧ OnlyAcPc s t ∧
    (s.ac.getLsbD 7 = true ↔ 128 ≤ s.ac.toNat) ∧
    (128 ≤ s.ac.toNat → t.pc = a) ∧ (s.ac.toNat < 128 → t.pc.toNat = (s.pc.toNat + 2) % 256)

/-- 42_control.md R134: JZ a sets PC to a where AC is 0, and advances PC by 2 mod 256 where it is not; nothing else changes. The
opcode byte 0xA0 is the default OPCODE_MAP's (D2, log entry 1). -/
def Obligations.JzJumpsIffZero : Prop :=
  (∀ a, encode defaultOpcodeMap (.jz a) = [0xA0, a]) ∧
  ∀ (a : Byte) (s : State), ∃ t, exec (.jz a) s = .next t ∧ t.ac = s.ac ∧ OnlyAcPc s t ∧
    (s.ac = 0#8 → t.pc = a) ∧ (s.ac ≠ 0#8 → t.pc.toNat = (s.pc.toNat + 2) % 256)

/-- 42_control.md R136: HLT sets RS to HALTED; PC stays at the HLT byte, and AC, memory, EV and NSTEP stay. The step that runs it
reads the opcode byte alone, not the byte at PC + 1. The opcode byte 0xF0 is the default OPCODE_MAP's (D2, log entry 1). -/
def Obligations.HltStopsInPlace : Prop :=
  encode defaultOpcodeMap .hlt = [0xF0] ∧
  (∀ s : State, ∃ t, exec .hlt s = .next t ∧
    t.rs = .halted ∧ t.pc = s.pc ∧ t.ac = s.ac ∧ SameMemory s t ∧
    t.ev = s.ev ∧ t.nstep = s.nstep ∧ t.params = s.params) ∧
  ∀ s : State, s.rs = .running → s.boundReached = false →
    decodeOpcode s.params.opcodeMap (s.memRead s.pc) = some .hlt →
    stepAccesses s = [⟨.opcodeFetch, s.pc, s.memRead s.pc⟩]

/-! ## The step -/

/-- While RS = RUNNING and the step bound is not reached, a step at whose PC the bytes of an unambiguous instruction stand (its
encoding under OPCODE_MAP, addresses mod 256) is that instruction's meaning after NSTEP has counted the step. 30_encoding.md R70; the
bound is D11 and the wrap at 0xFF is D6 (log entries 7, 10). -/
def Obligations.StepRunsTheInstructionAtPc : Prop :=
  ∀ (s : State) (i : Instr), s.rs = .running → s.boundReached = false →
    i.wf s.params.opcodeMap → s.holdsAt s.pc (encode s.params.opcodeMap i) →
    step s = exec i { s with nstep := s.nstep + 1 }

/-- A step answers a next state exactly while RS = RUNNING, and otherwise stops as stuck, naming how the run ended; it never
refuses. 10_state.md R28 and 60_exceptions.md R146 (derived and decided there; the stuck state is log entry 5). -/
def Obligations.StepIsDefinedExactlyWhileRunning : Prop :=
  ∀ s : State,
    ((∃ t, step s = .next t) ↔ s.rs = .running) ∧
    (s.rs ≠ .running → step s = .fault (.runEnded s.rs)) ∧
    ∀ r, step s ≠ .refused r

/-- How RS changes in a step: STEP_LIMIT exactly where the bound is reached, else UNKNOWN_OPCODE exactly where the byte at PC is no
opcode, else HALTED exactly where it is HLT's, else RUNNING. And a step at the bound does nothing but set RS: PC, AC and memory keep
their values, nothing is reported and NSTEP does not count it. 10_state.md R27 and R28, 30_encoding.md R70, 60_exceptions.md R144,
R146 and R148 (D10, D11, D33). -/
def Obligations.RunStatusTransitions : Prop :=
  (∀ s : State, s.rs = .running → s.boundReached = true → step s = .next { s with rs := .stepLimit }) ∧
  ∀ s t : State, step s = .next t →
    (t.rs = .stepLimit ↔ s.boundReached = true) ∧
    (t.rs = .unknownOpcode ↔
      s.boundReached = false ∧ decodeOpcode s.params.opcodeMap (s.memRead s.pc) = none) ∧
    (t.rs = .halted ↔
      s.boundReached = false ∧ decodeOpcode s.params.opcodeMap (s.memRead s.pc) = some .hlt) ∧
    (t.rs = .running ↔
      s.boundReached = false ∧ decodeOpcode s.params.opcodeMap (s.memRead s.pc) ≠ none ∧
        decodeOpcode s.params.opcodeMap (s.memRead s.pc) ≠ some .hlt)

/-- 20_memory.md R42, 60_exceptions.md R143: no access can fault, trap or be refused, so a running core always takes a step; and a
step reports at most one condition, either DivisionByZero at a DIV whose operand byte M[a] is 0, or UnknownOpcode at a byte that
is no opcode. -/
def Obligations.NoOtherConditionIsRaised : Prop :=
  ∀ s : State, s.rs = .running → ∃ t, step s = .next t ∧
    (t.ev = s.ev ∨
     (t.ev = s.ev ++ [.divisionByZero s.pc] ∧
       decodeOpcode s.params.opcodeMap (s.memRead s.pc) = some .div ∧
       s.memRead (s.memRead (operandAddr s.pc)) = 0) ∨
     (t.ev = s.ev ++ [.unknownOpcode s.pc (s.memRead s.pc)] ∧
       decodeOpcode s.params.opcodeMap (s.memRead s.pc) = none))

/-- 60_exceptions.md R145: neither condition enters a trap and both are precise. A step at a DIV with a zero divisor leaves the state
of a DIV with AC unchanged: PC after the DIV, the report, NSTEP, and nothing else. A step at a byte that is no opcode leaves the
state as it was but for the report, RS and NSTEP (that PC stays is D5, log entry 6). -/
def Obligations.ConditionsArePrecise : Prop :=
  ∀ s : State, s.rs = .running → s.boundReached = false →
    (decodeOpcode s.params.opcodeMap (s.memRead s.pc) = some .div →
      s.memRead (s.memRead (operandAddr s.pc)) = 0#8 →
      step s = .next { s with
        pc := BitVec.ofNat 8 (s.pc.toNat + 2), ev := s.ev ++ [.divisionByZero s.pc], nstep := s.nstep + 1 }) ∧
    (decodeOpcode s.params.opcodeMap (s.memRead s.pc) = none →
      step s = .next { s with
        rs := .unknownOpcode, ev := s.ev ++ [.unknownOpcode s.pc (s.memRead s.pc)], nstep := s.nstep + 1 })

/-- 10_state.md R21, which instructions touch AC. NOP, STA, JMP, JN, JZ and HLT leave it, and DIV leaves it when the divisor is 0;
LDA, ADD, SUB, MUL, DIV, OR, AND and NOT change it from some state. NOP, JMP and HLT do not read it: whatever AC holds, they do the
same to the rest of the state; nor does LDA, whose next state does not depend on AC. STA, JN and JZ read it: states that differ in AC
alone can lead to states that differ in more than AC. ADD, SUB, MUL, DIV, OR, AND and NOT read it: states that
differ in AC alone can lead to different values of AC. (An encoding is made of the mnemonic's
byte and the operand address, so none names AC.) -/
def Obligations.WhichInstructionsTouchAc : Prop :=
  (∀ (i : Instr) (s t : State), exec i s = .next t →
    i.mnemonic ∈ [Mnemonic.nop, .sta, .jmp, .jn, .jz, .hlt] → t.ac = s.ac) ∧
  (∀ (a : Byte) (s t : State), exec (.div a) s = .next t → s.memRead a = 0#8 → t.ac = s.ac) ∧
  (∀ (a : Byte) (m : Mnemonic), m ∈ [Mnemonic.lda, .add, .sub, .mul, .div, .or, .and, .not] →
    ∃ s t, exec (instrOf m a) s = .next t ∧ t.ac ≠ s.ac) ∧
  (∀ (a v : Byte) (s : State), exec (.lda a) { s with ac := v } = exec (.lda a) s) ∧
  (∀ (a v : Byte) (i : Instr) (s t : State), i = .nop ∨ i = .jmp a ∨ i = .hlt →
    exec i s = .next t → exec i { s with ac := v } = .next { t with ac := v }) ∧
  (∀ (a : Byte) (m : Mnemonic), m ∈ [Mnemonic.sta, .jn, .jz] →
    ∃ (s : State) (v : Byte) (t t' : State), exec (instrOf m a) s = .next t ∧
      exec (instrOf m a) { s with ac := v } = .next t' ∧ { t' with ac := t.ac } ≠ t) ∧
  ∀ (a : Byte) (m : Mnemonic), m ∈ [Mnemonic.add, .sub, .mul, .div, .or, .and, .not] →
    ∃ (s : State) (v : Byte) (t t' : State), exec (instrOf m a) s = .next t ∧
      exec (instrOf m a) { s with ac := v } = .next t' ∧ t'.ac ≠ t.ac

/-- 10_state.md R26: ADD, SUB and MUL keep no record of the bits above bit 7. Two states with the same PC, RS, EV, NSTEP and
parameters, whose exact results agree mod 256, have next states with the same AC, PC, RS, EV, NSTEP and parameters. -/
def Obligations.NoRecordOfDiscardedBits : Prop :=
  ∀ (a : Byte) (s s' : State), s'.pc = s.pc → SameBookkeeping s s' →
    (((s.ac.toNat + (s.memRead a).toNat) % 256 = (s'.ac.toNat + (s'.memRead a).toNat) % 256) →
      ∃ t t', exec (.add a) s = .next t ∧ exec (.add a) s' = .next t' ∧
        t'.ac = t.ac ∧ t'.pc = t.pc ∧ SameBookkeeping t t') ∧
    (((s.ac.toNat : Int) - (s.memRead a).toNat) % 256 = ((s'.ac.toNat : Int) - (s'.memRead a).toNat) % 256 →
      ∃ t t', exec (.sub a) s = .next t ∧ exec (.sub a) s' = .next t' ∧
        t'.ac = t.ac ∧ t'.pc = t.pc ∧ SameBookkeeping t t') ∧
    ((s.ac.toNat * (s.memRead a).toNat) % 256 = (s'.ac.toNat * (s'.memRead a).toNat) % 256 →
      ∃ t t', exec (.mul a) s = .next t ∧ exec (.mul a) s' = .next t' ∧
        t'.ac = t.ac ∧ t'.pc = t.pc ∧ SameBookkeeping t t')

/-- SUB and MUL agree with signed arithmetic mod 256 under the two's-complement reading, and DIV does not: 0xFE by 0x02 gives 0x7F
and not 0xFF. 41_alu.md R109 (derived there; DIV unsigned by D7, log entry 8). -/
def Obligations.SubAndMulAgreeWithSigned : Prop :=
  (∀ (a : Byte) (s t : State), exec (.sub a) s = .next t →
    t.ac.toInt = (s.ac.toInt - (s.memRead a).toInt).bmod 256) ∧
  (∀ (a : Byte) (s t : State), exec (.mul a) s = .next t →
    t.ac.toInt = (s.ac.toInt * (s.memRead a).toInt).bmod 256) ∧
  ∀ (a : Byte) (s t : State), s.ac = 0xFE → s.memRead a = 0x02 → exec (.div a) s = .next t →
    t.ac = 0x7F ∧ t.ac.toInt ≠ (s.ac.toInt.tdiv (s.memRead a).toInt).bmod 256

/-- No instruction reads EV or NSTEP: from two states that differ in these alone, every instruction, and where no bound is set every
step, leads to states that differ in these alone. 10_state.md R29, R30, R31 (EV and NSTEP are the spec's own, D8 and D11). -/
def Obligations.EventLogAndStepCountAreNotRead : Prop :=
  (∀ (i : Instr) (s s' t : State), SameCore s s' → exec i s = .next t →
    ∃ t', exec i s' = .next t' ∧ SameCore t t') ∧
  ∀ s s' t : State, SameCore s s' → s.params.maxSteps = none → step s = .next t →
    ∃ t', step s' = .next t' ∧ SameCore t t'

/-- A machine that keeps N and Z as flip-flops written with AC, and whose JN and JZ read the flip-flops, takes the same steps as the
model, and its flip-flops stay in agreement with AC. 10_state.md R25 (D9). -/
def Obligations.LatchedFlagsGiveTheSameSteps : Prop :=
  ∀ l : Latched, l.inSync →
    (∀ t, step l.core = .next t → ∃ l', l.step = .next l' ∧ l'.core = t ∧ l'.inSync) ∧
    (∀ f, step l.core = .fault f → l.step = .fault f)

/-! ## Memory -/

/-- 20_memory.md R41: the accesses of a step. A step at an instruction's bytes fetches the opcode byte at PC; then, for the eleven F1
instructions, the operand byte at (PC + 1) mod 256; then reads M[a] for LDA, ADD, SUB, MUL, DIV, OR and AND, or writes AC at a for
STA. NOP, NOT and HLT make the opcode fetch alone, the jumps no data access, and a byte that is no opcode the opcode fetch
alone. -/
def Obligations.StepMakesTheAccessesOfTheTable : Prop :=
  ∀ s : State, s.rs = .running → s.boundReached = false →
    (decodeOpcode s.params.opcodeMap (s.memRead s.pc) = none →
      stepAccesses s = [⟨.opcodeFetch, s.pc, s.memRead s.pc⟩]) ∧
    ∀ i : Instr, i.wf s.params.opcodeMap → s.holdsAt s.pc (encode s.params.opcodeMap i) →
      ∃ data, stepAccesses s =
          ⟨.opcodeFetch, s.pc, s.memRead s.pc⟩ ::
            (i.operand.toList.map (fun a => ⟨.operandFetch, BitVec.ofNat 8 (s.pc.toNat + 1), a⟩) ++ data) ∧
        (∀ a, i = .sta a → data = [⟨.dataWrite, a, s.ac⟩]) ∧
        (∀ a, i = .lda a ∨ i = .add a ∨ i = .sub a ∨ i = .mul a ∨ i = .div a ∨ i = .or a ∨ i = .and a →
          data = [⟨.dataRead, a, s.memRead a⟩]) ∧
        (∀ a, i = .nop ∨ i = .not ∨ i = .hlt ∨ i = .jmp a ∨ i = .jn a ∨ i = .jz a → data = [])

/-- A step writes exactly its data write: in a canonical memory the byte written reads as written, and every other byte reads as
before. 20_memory.md R41 and R46 (derived there). -/
def Obligations.StepWritesOnlyItsDataWrite : Prop :=
  ∀ s t : State, Memory.wf s.mem → step s = .next t →
    (∀ x ∈ stepAccesses s, x.kind = .dataWrite → t.memRead x.addr = x.value) ∧
    ∀ b : Byte, (∀ x ∈ stepAccesses s, x.kind = .dataWrite → x.addr ≠ b) → t.memRead b = s.memRead b

/-- A step depends on no byte but those its accesses read: two states that agree in everything but memory, and in the bytes the
step of the first reads, take steps that agree in everything but memory, and every byte in which they agreed they still agree in.
20_memory.md R41, R46 (derived there) and 30_encoding.md R72 (D20). -/
def Obligations.StepReadsOnlyItsAccesses : Prop :=
  ∀ (s : State) (m : Memory) (t : State), Memory.wf s.mem → Memory.wf m →
    (∀ x ∈ stepAccesses s, x.isRead = true → Memory.read m x.addr.toNat = s.memRead x.addr) →
    step s = .next t →
    ∃ t', step { s with mem := m } = .next t' ∧
      t'.ac = t.ac ∧ t'.pc = t.pc ∧ SameBookkeeping t t' ∧
      ∀ b : Byte, Memory.read m b.toNat = s.memRead b → t'.memRead b = t.memRead b

/-- Memory is sequential: in a run, every read access returns the value of the latest earlier write to its address, or the byte the
run began with if there is none; and so does memory after the run. 20_memory.md R49 (D16). -/
def Obligations.ReadsReturnTheLatestWrite : Prop :=
  ∀ (n : Nat) (s : State), Memory.wf s.mem →
    (∀ before x after, runAccesses n s = before ++ x :: after → x.isRead = true →
      x.value = (lastWrite x.addr before).getD (s.memRead x.addr)) ∧
    ∀ b : Byte, (runFor n s).memRead b = (lastWrite b (runAccesses n s)).getD (s.memRead b)

/-- A fetch sees an earlier store at once: after a STA that writes the byte at the next PC, or the byte after it, the next step
fetches the byte stored. 20_memory.md R53 (D17). -/
def Obligations.FetchSeesTheStoreBeforeIt : Prop :=
  ∀ (s t : State) (a : Byte), Memory.wf s.mem → s.rs = .running → s.boundReached = false →
    Instr.wf s.params.opcodeMap (.sta a) → s.holdsAt s.pc (encode s.params.opcodeMap (.sta a)) →
    step s = .next t →
    (t.pc = a → t.fetchBytes.head? = some s.ac) ∧
    (operandAddr t.pc = a → t.fetchBytes.length = 2 → t.fetchBytes[1]? = some s.ac)

/-- Two canonical memories that read the same at each of the 256 addresses are the same list: equal memories are equal data.
20_memory.md R40; the canonical form is the model's (log entry 13). -/
def Obligations.CanonicalMemoriesAreEqual : Prop :=
  ∀ m m' : Memory, Memory.wf m → Memory.wf m' →
    (∀ a : Byte, Memory.read m a.toNat = Memory.read m' a.toNat) → m = m'

/-! ## Encoding -/

/-- 30_encoding.md R60 and R61: NOP, NOT and HLT are one byte, the opcode; the eleven others are two, the opcode and then the
absolute address. Under every OPCODE_MAP. -/
def Obligations.FormatsAreOneAndTwoBytes : Prop :=
  ∀ map : OpcodeMap,
    encode map .nop = [map.nop] ∧ encode map .not = [map.not] ∧ encode map .hlt = [map.hlt] ∧
    ∀ a : Byte,
      encode map (.lda a) = [map.lda, a] ∧ encode map (.sta a) = [map.sta, a] ∧ encode map (.add a) = [map.add, a] ∧
      encode map (.sub a) = [map.sub, a] ∧ encode map (.mul a) = [map.mul, a] ∧ encode map (.div a) = [map.div, a] ∧
      encode map (.or a) = [map.or, a] ∧ encode map (.and a) = [map.and, a] ∧ encode map (.jmp a) = [map.jmp, a] ∧
      encode map (.jn a) = [map.jn, a] ∧ encode map (.jz a) = [map.jz, a]

/-- Words written out from the default encodings decode to their instructions, one from each family and one illegal byte. The
bytes are the default OPCODE_MAP's (D2, log entry 1); 30_encoding.md R62, R68. -/
def Obligations.DefaultWordsDecode : Prop :=
  decode defaultOpcodeMap [0b00010000#8, 0b10000011#8] = .ok (.sta 0x83, []) ∧
  decode defaultOpcodeMap [0b01110000#8, 0b10000010#8] = .ok (.sub 0x82, []) ∧
  decode defaultOpcodeMap [0b10100000#8, 0b00010000#8] = .ok (.jz 0x10, []) ∧
  decode defaultOpcodeMap [0b11110000#8] = .ok (.hlt, []) ∧
  decode defaultOpcodeMap [0b00100001#8, 0b10000000#8] = .error (.unknownOpcode 0x21)

/-- Under the default OPCODE_MAP the legal opcode bytes are exactly the 14 of 30_encoding.md R68 (D2, D3, D32; log entries 1, 11). -/
def Obligations.DefaultMapHasFourteenLegalBytes : Prop :=
  ∀ op : Byte, decodeOpcode defaultOpcodeMap op ≠ none ↔
    op ∈ ([0x00, 0x10, 0x20, 0x30, 0x40, 0x50, 0x60, 0x70, 0x80, 0x90, 0xA0, 0xC0, 0xD0, 0xF0] : List Byte)

/-- Decoding an encoded instruction gives it back, with whatever bytes follow left over: for every OPCODE_MAP, every instruction whose
opcode byte stands for no other mnemonic, and every operand byte; and under an injective OPCODE_MAP that is every instruction.
30_encoding.md R60, R61, R63, R64, R67. -/
def Obligations.DecodeEncodeRoundTrip : Prop :=
  ∀ (map : OpcodeMap) (i : Instr),
    (i.wf map → ∀ rest : List Byte, decode map (encode map i ++ rest) = .ok (i, rest)) ∧
    (map.wf → ∀ rest : List Byte, decode map (encode map i ++ rest) = .ok (i, rest))

/-- Bytes that decode are the encoding of what they decode to, followed by the bytes left over, under every OPCODE_MAP: no bit of the
opcode byte is ignored and none of the operand is dropped. 30_encoding.md R64 (D3), R66. -/
def Obligations.DecodedBytesAreTheEncoding : Prop :=
  ∀ (map : OpcodeMap) (bytes : List Byte) (i : Instr) (rest : List Byte),
    decode map bytes = .ok (i, rest) → bytes = encode map i ++ rest

/-! ## Reset and load -/

/-- The invariant holds right after reset. -/
def Obligations.InvariantHoldsAtReset : Prop := State.reset.inv

/-- The reset state is what loading the image with an all-zero payload gives under the default parameters. 10_state.md R36; that
the payload is all zero is the model's choice (log entry 3). -/
def Obligations.ResetIsLoadOfTheZeroImage : Prop :=
  load defaultParams ([0x03, 0x4E, 0x44, 0x52] ++ List.replicate 256 0x00) = .ok State.reset

/-- Loading an image of at least 260 bytes gives a fresh state: AC = PC = 0, M[i] = image byte 4 + i, N = 0 and Z = 1, RS = RUNNING,
EV empty, NSTEP = 0, with the parameters it was loaded under. 10_state.md R36, 70_reset_and_hazards.md R162 (D8, D10, D11, D14). -/
def Obligations.LoadGivesTheResetValues : Prop :=
  ∀ (p : Params) (image : List Byte), 260 ≤ image.length →
    ∃ s, load p image = .ok s ∧
      s.ac = 0 ∧ s.pc = 0 ∧ s.rs = .running ∧ s.ev = [] ∧ s.nstep = 0 ∧ s.params = p ∧
      s.flagN = false ∧ s.flagZ = true ∧
      ∀ a : Byte, image[4 + a.toNat]? = some (s.memRead a)

/-- Load fails exactly on an image of fewer than 260 bytes; the header bytes and the bytes from offset 260 on make no difference.
70_reset_and_hazards.md R161 (D12, D13, log entry 20). -/
def Obligations.LoadLooksAtLengthAndPayloadOnly : Prop :=
  (∀ (p : Params) (image : List Byte), load p image = .error .imageTooSmall ↔ image.length < 260) ∧
  ∀ (p : Params) (header header' bytes more : List Byte),
    header.length = 4 → header'.length = 4 → bytes.length = 256 →
    load p (header ++ bytes ++ more) = load p (header' ++ bytes)

/-- 70_reset_and_hazards.md R163: the entry point is address 0x00. After a load, unless the bound is 0, the first access of the first
step is the opcode fetch of M[0x00], which is image byte 4. -/
def Obligations.FirstStepFetchesAddressZero : Prop :=
  ∀ (p : Params) (image : List Byte) (s : State), load p image = .ok s → p.maxSteps ≠ some 0 →
    ∃ b more, image[4]? = some b ∧ stepAccesses s = ⟨.opcodeFetch, 0x00, b⟩ :: more

/-! ## Invariants and runs -/

/-- Every step keeps the invariant: canonical memory below 0x100, at most one report a step, no more steps than the bound, and a run
status the state bears out. 20_memory.md R40, 42_control.md R136, 60_exceptions.md R142, R144, R146, R148 (D5, D10, D11). -/
def Obligations.EveryStepKeepsTheInvariant : Prop :=
  ∀ s t : State, s.inv → step s = .next t → t.inv

/-- Whatever the host does, the block's CPU state, if there is one, meets the invariant, and each transaction does what it says. A
transaction is turned away only where no step is defined: a step with no CPU state, or with RS not RUNNING. A load of fewer than 260
bytes leaves no state; a longer one leaves the loaded state. A step is a step of the core. Setting MAX_STEPS sets it for the next load
and for a loaded state whose run has not begun. 10_state.md R28 and R35, 60_exceptions.md R148 and R158, 70_reset_and_hazards.md R162 and
R164 (D11, D14, D15). That a run that has begun keeps its bound is the model's choice (log entry 10), and so is a load in the middle of
a run (log entry 25). -/
def Obligations.EveryTransactionKeepsTheInvariant : Prop :=
  (∀ (b : Block) (x : HostAction), b.act x = none ↔ x = .step ∧ ∀ s, b.cpu = some s → s.rs ≠ .running) ∧
  ∀ (b b' : Block) (x : HostAction), b.act x = some b' →
    ((∀ s, b.cpu = some s → s.inv) → ∀ s, b'.cpu = some s → s.inv) ∧
    (∀ image, x = .load image → b'.params = b.params ∧
      (image.length < 260 → b'.cpu = none ∧ b'.loadError = some .imageTooSmall) ∧
      (260 ≤ image.length → b'.loadError = none ∧ ∃ s, b'.cpu = some s ∧ load b.params image = .ok s)) ∧
    (x = .step → b'.params = b.params ∧ b'.loadError = b.loadError ∧
      ∃ s t, b.cpu = some s ∧ step s = .next t ∧ b'.cpu = some t) ∧
    (∀ k, x = .setMaxSteps k →
      b'.params = { b.params with maxSteps := k } ∧ b'.loadError = b.loadError ∧ (b.cpu = none → b'.cpu = none) ∧
      ∀ s, b.cpu = some s →
        (s.rs = .running → s.nstep = 0 → b'.cpu = some { s with params := { s.params with maxSteps := k } }) ∧
        (s.rs ≠ .running ∨ s.nstep ≠ 0 → b'.cpu = some s))

/-- A run only appends to EV, never changes the parameters, and stays where it ended. 10_state.md R28, R29, 60_exceptions.md R146,
R147 (D8; the parameters in State are log entry 2). -/
def Obligations.RunAppendsEventsAndKeepsParameters : Prop :=
  ∀ (n : Nat) (s : State),
    s.ev <+: (runFor n s).ev ∧ (runFor n s).params = s.params ∧
    ((runFor n s).rs ≠ .running → ∀ k, runFor (n + k) s = runFor n s)

/-- A run that is still RUNNING after n steps has counted n steps. 10_state.md R30 (D11). -/
def Obligations.RunningCountsEveryStep : Prop :=
  ∀ (n : Nat) (s : State), (runFor n s).rs = .running → (runFor n s).nstep = s.nstep + n

/-- With MAX_STEPS = k a run ends: once NSTEP plus the steps asked for exceed k, RS is no longer RUNNING; and at most k less NSTEP
opcode bytes are fetched. 60_exceptions.md R148 (D11, log entry 10). -/
def Obligations.BoundedRunEnds : Prop :=
  ∀ (k n : Nat) (s : State), s.params.maxSteps = some k →
    (0 < n → k < s.nstep + n → (runFor n s).rs ≠ .running) ∧
    (runAccesses n s).countP (fun x => x.kind == .opcodeFetch) ≤ k - s.nstep

/-- Without a bound, a memory that reads 0x00 everywhere, where 0x00 is NOP's byte alone, runs forever: after n steps PC has advanced
by n mod 256, NSTEP by n, and nothing else has changed. 40_nop_and_transfer.md R100 and 70_reset_and_hazards.md R166 (derived
there; 0x00 is NOP by D2). -/
def Obligations.ZeroMemoryNeverHalts : Prop :=
  ∀ (n : Nat) (s : State), s.rs = .running → s.params.maxSteps = none →
    s.params.opcodeMap.nop = 0x00 → Instr.wf s.params.opcodeMap .nop → (∀ b : Byte, s.memRead b = 0x00) →
    runFor n s = { s with pc := BitVec.ofNat 8 (s.pc.toNat + n), nstep := s.nstep + n }

/-- The dump shows the state: AC, PC, RS and EV as they are, and the memory in 16 rows of 16 bytes that hold M[0x00] to M[0xFF] in
order. 60_exceptions.md R158, R159 (D15, D18). -/
def Obligations.DumpShowsTheState : Prop :=
  ∀ s : State, s.dump.accumulator = s.ac ∧ s.dump.programCounter = s.pc ∧ s.dump.status = s.rs ∧
    s.dump.conditions = s.ev ∧ s.dump.memoryRows.length = 16 ∧ (∀ row ∈ s.dump.memoryRows, row.length = 16) ∧
    ∀ a : Byte, s.dump.memoryRows.flatten[a.toNat]? = some (s.memRead a)

/-! ## The assembler -/

/-- 30_encoding.md R99: the assembler's output is exactly 260 bytes and begins with the header; loading it takes its bytes 4 to 259 as
memory, stripping exactly the first 4. The header's bytes 03 4E 44 52 are 30_encoding.md R88's (D31, ASCII from general knowledge). -/
def Obligations.AssembledImageLoads : Prop :=
  ∀ (map : OpcodeMap) (text : List Char) (image : List Byte), assemble map text = .ok image →
    image.length = 260 ∧ image.take 4 = [0x03, 0x4E, 0x44, 0x52] ∧
    ∀ p : Params, ∃ s, load p image = .ok s ∧ ∀ a : Byte, (image.drop 4)[a.toNat]? = some (s.memRead a)

/-- What a layout promises: no name defined twice among data symbols and labels, the k-th data symbol at 0x80 + k, and no byte of
code or data on another or above 0xFF. 30_encoding.md R83, R87 (D22), R92 (D23), R93 (D27). -/
def Obligations.LayoutHasNoClash : Prop :=
  ∀ (text : List Char) (L : Layout), layout text = .ok L →
    (L.data.map DataSymbol.name ++ L.labels.map Label.name).Nodup ∧
    (∀ (k : Nat) (d : DataSymbol), L.data[k]? = some d → d.addr = 0x80 + k) ∧
    (usedAddrs L.data L.code).Nodup ∧ ∀ a ∈ usedAddrs L.data L.code, a < 256

/-- Assembled code runs as written: in the memory loaded from the image, at the address of every instruction laid out, the encoding of
that instruction stands, its mnemonic the line's and its operand the address of its name; every data symbol's byte has its
initial value; and every byte of neither is 0x00. 30_encoding.md R86, R88, R89, R63. An operand is the name's address mod 256, so a label
recorded at 0x100 gives 0x00: the model's inference (DEDUCED, log entry 23). -/
def Obligations.AssembledMemoryIsTheLayout : Prop :=
  ∀ (p : Params) (text : List Char) (image : List Byte) (L : Layout) (s : State),
    layout text = .ok L → assemble p.opcodeMap text = .ok image → load p image = .ok s →
    (∀ q ∈ L.code, ∃ i, i.mnemonic = q.mnemonic ∧
      (∀ name, q.operand = some name → ∃ a, resolve L name = some a ∧ i.operand = some (BitVec.ofNat 8 a)) ∧
      s.holdsAt (BitVec.ofNat 8 q.addr) (encode p.opcodeMap i)) ∧
    (∀ d ∈ L.data, s.memRead (BitVec.ofNat 8 d.addr) = d.value) ∧
    ∀ a : Byte, a.toNat ∉ usedAddrs L.data L.code → s.memRead a = 0x00

/-- An operand that names no label and no data symbol never assembles: the answer is UnresolvedSymbol, and no image. 30_encoding.md
R85, R89, R94. For an operand token that is neither a name nor numeric, that class of error is the model's choice (log entry 26). -/
def Obligations.UnresolvedNameNeverAssembles : Prop :=
  ∀ (map : OpcodeMap) (text : List Char) (L : Layout) (q : PlacedInstr) (name : Token),
    layout text = .ok L → q ∈ L.code → q.operand = some name → resolve L name = none →
    ∃ line, assemble map text = .error ⟨.unresolvedSymbol, line⟩
end

