-- ==== Sys2Proof/Laws/Decode.lean ====
section
/-! SUPPORT. The decoder and the map: what a decoded opcode byte says, and the parts of the encoder. -/

namespace Sys2Proof

theorem Mnemonic.mem_all (m : Mnemonic) : m ∈ Mnemonic.all := by cases m <;> decide

/-- A decoded byte is the map's byte of its mnemonic, in any map. -/
theorem byteOf_of_decodeOpcode {map : OpcodeMap} {op : Byte} {m : Mnemonic}
    (h : decodeOpcode map op = some m) : map.byteOf m = op := by
  have := List.find?_some h
  simpa using this

/-- A byte that no mnemonic has is unknown, and only such a byte. -/
theorem decodeOpcode_eq_none {map : OpcodeMap} {op : Byte} :
    decodeOpcode map op = none ↔ ∀ m, map.byteOf m ≠ op := by
  simp [decodeOpcode, Mnemonic.mem_all]

/-- Where no other mnemonic has its byte, a mnemonic is what its byte decodes to. -/
theorem decodeOpcode_byteOf {map : OpcodeMap} {m : Mnemonic}
    (h : ∀ n ∈ Mnemonic.all, map.byteOf n = map.byteOf m → n = m) :
    decodeOpcode map (map.byteOf m) = some m := by
  cases hd : decodeOpcode map (map.byteOf m) with
  | none => exact absurd rfl (decodeOpcode_eq_none.1 hd m)
  | some n => rw [h n n.mem_all (byteOf_of_decodeOpcode hd)]

/-- Every instruction of an injective map is well-formed in it. -/
theorem Instr.wf_of_map_wf {map : OpcodeMap} (h : map.wf) (i : Instr) : i.wf map := by
  intro n hn hb
  exact List.inj_on_of_nodup_map h hn (Mnemonic.mem_all _) hb

theorem defaultOpcodeMap_wf : defaultOpcodeMap.wf := by decide

@[simp] theorem instrOf_mnemonic (m : Mnemonic) (a : Byte) : (instrOf m a).mnemonic = m := by cases m <;> rfl

end Sys2Proof
end

