-- ==== Sys2Proof/Laws/State.lean ====
section
/-! SUPPORT. One lemma for each field of State under each update of Machine/Ops.lean. -/

namespace Sys2Proof.Machine

@[simp] theorem State.setAc_ac (s : State) (v : Byte) : (s.setAc v).ac = v := rfl
@[simp] theorem State.setAc_pc (s : State) (v : Byte) : (s.setAc v).pc = s.pc := rfl
@[simp] theorem State.setAc_mem (s : State) (v : Byte) : (s.setAc v).mem = s.mem := rfl
@[simp] theorem State.setAc_rs (s : State) (v : Byte) : (s.setAc v).rs = s.rs := rfl
@[simp] theorem State.setAc_ev (s : State) (v : Byte) : (s.setAc v).ev = s.ev := rfl
@[simp] theorem State.setAc_nstep (s : State) (v : Byte) : (s.setAc v).nstep = s.nstep := rfl
@[simp] theorem State.setAc_params (s : State) (v : Byte) : (s.setAc v).params = s.params := rfl

@[simp] theorem State.setPc_ac (s : State) (v : Byte) : (s.setPc v).ac = s.ac := rfl
@[simp] theorem State.setPc_pc (s : State) (v : Byte) : (s.setPc v).pc = v := rfl
@[simp] theorem State.setPc_mem (s : State) (v : Byte) : (s.setPc v).mem = s.mem := rfl
@[simp] theorem State.setPc_rs (s : State) (v : Byte) : (s.setPc v).rs = s.rs := rfl
@[simp] theorem State.setPc_ev (s : State) (v : Byte) : (s.setPc v).ev = s.ev := rfl
@[simp] theorem State.setPc_nstep (s : State) (v : Byte) : (s.setPc v).nstep = s.nstep := rfl
@[simp] theorem State.setPc_params (s : State) (v : Byte) : (s.setPc v).params = s.params := rfl

@[simp] theorem State.memWrite_ac (s : State) (a v : Byte) : (s.memWrite a v).ac = s.ac := rfl
@[simp] theorem State.memWrite_pc (s : State) (a v : Byte) : (s.memWrite a v).pc = s.pc := rfl
@[simp] theorem State.memWrite_mem (s : State) (a v : Byte) : (s.memWrite a v).mem = Memory.write s.mem a.toNat v := rfl
@[simp] theorem State.memWrite_rs (s : State) (a v : Byte) : (s.memWrite a v).rs = s.rs := rfl
@[simp] theorem State.memWrite_ev (s : State) (a v : Byte) : (s.memWrite a v).ev = s.ev := rfl
@[simp] theorem State.memWrite_nstep (s : State) (a v : Byte) : (s.memWrite a v).nstep = s.nstep := rfl
@[simp] theorem State.memWrite_params (s : State) (a v : Byte) : (s.memWrite a v).params = s.params := rfl

@[simp] theorem State.report_ac (s : State) (e : Event) : (s.report e).ac = s.ac := rfl
@[simp] theorem State.report_pc (s : State) (e : Event) : (s.report e).pc = s.pc := rfl
@[simp] theorem State.report_mem (s : State) (e : Event) : (s.report e).mem = s.mem := rfl
@[simp] theorem State.report_rs (s : State) (e : Event) : (s.report e).rs = s.rs := rfl
@[simp] theorem State.report_ev (s : State) (e : Event) : (s.report e).ev = s.ev ++ [e] := rfl
@[simp] theorem State.report_nstep (s : State) (e : Event) : (s.report e).nstep = s.nstep := rfl
@[simp] theorem State.report_params (s : State) (e : Event) : (s.report e).params = s.params := rfl

@[simp] theorem State.stop_ac (s : State) (r : RunStatus) : (s.stop r).ac = s.ac := rfl
@[simp] theorem State.stop_pc (s : State) (r : RunStatus) : (s.stop r).pc = s.pc := rfl
@[simp] theorem State.stop_mem (s : State) (r : RunStatus) : (s.stop r).mem = s.mem := rfl
@[simp] theorem State.stop_rs (s : State) (r : RunStatus) : (s.stop r).rs = r := rfl
@[simp] theorem State.stop_ev (s : State) (r : RunStatus) : (s.stop r).ev = s.ev := rfl
@[simp] theorem State.stop_nstep (s : State) (r : RunStatus) : (s.stop r).nstep = s.nstep := rfl
@[simp] theorem State.stop_params (s : State) (r : RunStatus) : (s.stop r).params = s.params := rfl

@[simp] theorem State.countStep_ac (s : State) : (s.countStep).ac = s.ac := rfl
@[simp] theorem State.countStep_pc (s : State) : (s.countStep).pc = s.pc := rfl
@[simp] theorem State.countStep_mem (s : State) : (s.countStep).mem = s.mem := rfl
@[simp] theorem State.countStep_rs (s : State) : (s.countStep).rs = s.rs := rfl
@[simp] theorem State.countStep_ev (s : State) : (s.countStep).ev = s.ev := rfl
@[simp] theorem State.countStep_nstep (s : State) : (s.countStep).nstep = s.nstep + 1 := rfl
@[simp] theorem State.countStep_params (s : State) : (s.countStep).params = s.params := rfl

@[simp] theorem State.advance_ac (s : State) (n : Nat) : (s.advance n).ac = s.ac := rfl
@[simp] theorem State.advance_pc (s : State) (n : Nat) : (s.advance n).pc = addrAdd s.pc n := rfl
@[simp] theorem State.advance_mem (s : State) (n : Nat) : (s.advance n).mem = s.mem := rfl
@[simp] theorem State.advance_rs (s : State) (n : Nat) : (s.advance n).rs = s.rs := rfl
@[simp] theorem State.advance_ev (s : State) (n : Nat) : (s.advance n).ev = s.ev := rfl
@[simp] theorem State.advance_nstep (s : State) (n : Nat) : (s.advance n).nstep = s.nstep := rfl
@[simp] theorem State.advance_params (s : State) (n : Nat) : (s.advance n).params = s.params := rfl

@[simp] theorem State.raise_ac (s : State) (e : Event) : (s.raise e).ac = s.ac := by cases e <;> rfl
@[simp] theorem State.raise_pc (s : State) (e : Event) : (s.raise e).pc = s.pc := by cases e <;> rfl
@[simp] theorem State.raise_mem (s : State) (e : Event) : (s.raise e).mem = s.mem := by cases e <;> rfl
@[simp] theorem State.raise_nstep (s : State) (e : Event) : (s.raise e).nstep = s.nstep := by cases e <;> rfl
@[simp] theorem State.raise_params (s : State) (e : Event) : (s.raise e).params = s.params := by cases e <;> rfl
@[simp] theorem State.raise_ev (s : State) (e : Event) : (s.raise e).ev = s.ev ++ [e] := by cases e <;> rfl
@[simp] theorem State.raise_divisionByZero_rs (s : State) (pc : Byte) : (s.raise (.divisionByZero pc)).rs = s.rs := rfl
@[simp] theorem State.raise_unknownOpcode_rs (s : State) (pc b : Byte) :
    (s.raise (.unknownOpcode pc b)).rs = .unknownOpcode := rfl

@[simp] theorem State.setMaxSteps_ac (s : State) (k : Option Nat) : (s.setMaxSteps k).ac = s.ac := rfl
@[simp] theorem State.setMaxSteps_pc (s : State) (k : Option Nat) : (s.setMaxSteps k).pc = s.pc := rfl
@[simp] theorem State.setMaxSteps_mem (s : State) (k : Option Nat) : (s.setMaxSteps k).mem = s.mem := rfl
@[simp] theorem State.setMaxSteps_rs (s : State) (k : Option Nat) : (s.setMaxSteps k).rs = s.rs := rfl
@[simp] theorem State.setMaxSteps_ev (s : State) (k : Option Nat) : (s.setMaxSteps k).ev = s.ev := rfl
@[simp] theorem State.setMaxSteps_nstep (s : State) (k : Option Nat) : (s.setMaxSteps k).nstep = s.nstep := rfl
@[simp] theorem State.setMaxSteps_maxSteps (s : State) (k : Option Nat) : (s.setMaxSteps k).params.maxSteps = k := rfl
@[simp] theorem State.setMaxSteps_opcodeMap (s : State) (k : Option Nat) :
    (s.setMaxSteps k).params.opcodeMap = s.params.opcodeMap := rfl
@[simp] theorem State.setMaxSteps_notPcAdvance (s : State) (k : Option Nat) :
    (s.setMaxSteps k).params.notPcAdvance = s.params.notPcAdvance := rfl

@[simp] theorem State.runNotBegun_iff (s : State) : s.runNotBegun = true ↔ s.rs = .running ∧ s.nstep = 0 := by
  simp [State.runNotBegun]

/-- The two things `boundBeforeRun` can do, guards included. -/
theorem State.boundBeforeRun_cases (s : State) (k : Option Nat) :
    (s.rs = .running ∧ s.nstep = 0 ∧ s.boundBeforeRun k = s.setMaxSteps k) ∨
    (¬ (s.rs = .running ∧ s.nstep = 0) ∧ s.boundBeforeRun k = s) := by
  by_cases h : s.rs = .running ∧ s.nstep = 0
  · exact .inl ⟨h.1, h.2, by simp [State.boundBeforeRun, h]⟩
  · exact .inr ⟨h, by simp [State.boundBeforeRun, h]⟩

end Sys2Proof.Machine
end

