-- ==== Sys2Proof/Laws/Memory.lean ====
section
/-! SUPPORT. Memory: read after write, and every memory operation keeps the canonical form. -/

namespace Sys2Proof.Machine

/-- Every address of a memory is at least `k`. -/
def Memory.from (k : Nat) (m : Memory) : Prop := ∀ c ∈ m, k ≤ c.1

theorem Memory.read_of_from {m : Memory} {k j : Nat} (h : Memory.from k m) (hj : j < k) :
    Memory.read m j = unlistedByte := by
  induction m with
  | nil => rfl
  | cons c rest ih =>
    have hc := h c (by simp)
    have hne : c.1 ≠ j := by omega
    simpa [Memory.read, hne] using ih (fun d hd => h d (by simp [hd]))

theorem Memory.from_of_pairwise {c : Host.Cell} {m : Memory}
    (h : (c :: m).Pairwise (fun c d => c.1 < d.1)) : Memory.from (c.1 + 1) m :=
  fun d hd => (List.pairwise_cons.1 h).1 d hd

theorem Memory.read_put {k : Nat} (v : Byte) {m : Memory} (h : Memory.from (k + 1) m) (j : Nat) :
    Memory.read (Memory.put k v m) j = if k = j then v else Memory.read m j := by
  unfold Memory.put
  split
  · next hv =>
    split
    · next hj => subst hj; rw [hv]; exact Memory.read_of_from h (by omega)
    · rfl
  · rfl

theorem Memory.from_put {k j : Nat} {v : Byte} {m : Memory} (hk : j ≤ k) (h : Memory.from j m) :
    Memory.from j (Memory.put k v m) := by
  unfold Memory.put
  split
  · exact h
  · intro c hc
    rcases List.mem_cons.1 hc with rfl | hc
    · exact hk
    · exact h c hc

theorem Memory.wf_cons {c : Host.Cell} {m : Memory} :
    Memory.wf (c :: m) ↔ Memory.from (c.1 + 1) m ∧ c.1 < memSize ∧ c.2 ≠ unlistedByte ∧ Memory.wf m := by
  constructor
  · rintro ⟨hp, hm⟩
    exact ⟨Memory.from_of_pairwise hp, (hm c (by simp)).1, (hm c (by simp)).2,
      (List.pairwise_cons.1 hp).2, fun d hd => hm d (by simp [hd])⟩
  · rintro ⟨hf, hk, hv, hp, hm⟩
    refine ⟨List.pairwise_cons.2 ⟨fun d hd => hf d hd, hp⟩, ?_⟩
    intro d hd
    rcases List.mem_cons.1 hd with rfl | hd
    · exact ⟨hk, hv⟩
    · exact hm d hd

theorem Memory.wf_nil : Memory.wf [] := ⟨List.Pairwise.nil, by simp⟩

/-- Reset memory has the canonical form. -/
theorem State.reset_mem_wf : Memory.wf State.reset.mem := Memory.wf_nil

theorem Memory.wf_put {k : Nat} {v : Byte} {m : Memory} (hk : k < memSize) (hf : Memory.from (k + 1) m)
    (h : Memory.wf m) : Memory.wf (Memory.put k v m) := by
  unfold Memory.put
  split
  · exact h
  · next hv => exact Memory.wf_cons.2 ⟨hf, hk, hv, h⟩

theorem Memory.from_mono {j k : Nat} {m : Memory} (hjk : j ≤ k) (h : Memory.from k m) : Memory.from j m :=
  fun c hc => le_trans hjk (h c hc)

theorem Memory.from_write {j k : Nat} {v : Byte} {m : Memory} (hk : j ≤ k) (h : Memory.from j m) :
    Memory.from j (Memory.write m k v) := by
  induction m with
  | nil => exact Memory.from_put hk h
  | cons c rest ih =>
    have hrest : Memory.from j rest := fun d hd => h d (by simp [hd])
    simp only [Memory.write]
    split
    · exact Memory.from_put hk h
    · split
      · exact Memory.from_put hk hrest
      · intro d hd
        rcases List.mem_cons.1 hd with rfl | hd
        · exact h _ (by simp)
        · exact ih hrest d hd

/-- A write keeps the canonical form. -/
theorem Memory.wf_write {m : Memory} {k : Nat} {v : Byte} (hk : k < memSize) (h : Memory.wf m) :
    Memory.wf (Memory.write m k v) := by
  induction m with
  | nil => exact Memory.wf_put hk (by intro c hc; simp at hc) h
  | cons c rest ih =>
    obtain ⟨hf, hc, hv, hw⟩ := Memory.wf_cons.1 h
    simp only [Memory.write]
    split
    · next hlt =>
      refine Memory.wf_put hk ?_ h
      intro d hd
      rcases List.mem_cons.1 hd with rfl | hd
      · exact hlt
      · have := hf d hd; omega
    · split
      · next heq => exact Memory.wf_put hk (heq ▸ hf) hw
      · next hlt hne => exact Memory.wf_cons.2 ⟨Memory.from_write (by omega) hf, hc, hv, ih hw⟩

/-- A read after a write: the byte written at its address, the old byte elsewhere. -/
theorem Memory.read_write {m : Memory} (h : Memory.wf m) (k : Nat) (v : Byte) (j : Nat) :
    Memory.read (Memory.write m k v) j = if k = j then v else Memory.read m j := by
  induction m with
  | nil => exact Memory.read_put v (by intro c hc; simp at hc) j
  | cons c rest ih =>
    obtain ⟨hf, -, -, hw⟩ := Memory.wf_cons.1 h
    simp only [Memory.write]
    split
    · next hlt =>
      refine Memory.read_put v ?_ j
      intro d hd
      rcases List.mem_cons.1 hd with rfl | hd
      · exact hlt
      · have := hf d hd; omega
    · split
      · next heq =>
        rw [Memory.read_put v (heq ▸ hf)]
        by_cases hj : k = j
        · simp [hj]
        · simp [hj, Memory.read, heq]
      · next hlt hne =>
        simp only [Memory.read, ih hw]
        by_cases hj : k = j
        · subst hj; simp [hne]
        · simp [hj]

/-- A read of memory after a write through the state. -/
theorem State.memRead_memWrite {s : State} (h : Memory.wf s.mem) (a v b : Byte) :
    (s.memWrite a v).memRead b = if a = b then v else s.memRead b := by
  simp only [State.memRead, State.memWrite_mem, Memory.read_write h, BitVec.toNat_inj]

theorem State.memWrite_wf {s : State} (h : Memory.wf s.mem) (a v : Byte) : Memory.wf (s.memWrite a v).mem :=
  Memory.wf_write a.isLt h

/-- Storing an instruction's bytes keeps the canonical form. -/
theorem State.storeBytes_wf {s : State} (h : Memory.wf s.mem) (a : Byte) (bs : List Byte) :
    Memory.wf (s.storeBytes a bs).mem := by
  induction bs generalizing s a with
  | nil => exact h
  | cons b bs ih => exact ih (State.memWrite_wf h a b) _

theorem memoryFrom_from (k : Nat) (bs : List Byte) : Memory.from k (memoryFrom k bs) := by
  induction bs generalizing k with
  | nil => intro c hc; simp [memoryFrom] at hc
  | cons b bs ih => exact Memory.from_put (le_refl k) (Memory.from_mono (by omega) (ih (k + 1)))

/-- A loaded memory has the canonical form. -/
theorem memoryFrom_wf (k : Nat) (bs : List Byte) (h : k + bs.length ≤ memSize) : Memory.wf (memoryFrom k bs) := by
  induction bs generalizing k with
  | nil => exact Memory.wf_nil
  | cons b bs ih =>
    simp only [List.length_cons] at h
    exact Memory.wf_put (by omega) (memoryFrom_from _ _) (ih (k + 1) (by omega))

/-- Reading a memory made from a list of bytes. -/
theorem memoryFrom_read (k : Nat) (bs : List Byte) (j : Nat) :
    Memory.read (memoryFrom k bs) (k + j) = bs.getD j unlistedByte := by
  induction bs generalizing k j with
  | nil => rfl
  | cons b bs ih =>
    rw [memoryFrom, Memory.read_put b (memoryFrom_from _ _)]
    cases j with
    | zero => simp
    | succ j =>
      have := ih (k + 1) j
      have hne : k ≠ k + (j + 1) := by omega
      rw [show k + (j + 1) = k + 1 + j by omega] at *
      simpa [hne] using this

end Sys2Proof.Machine
end

