-- ==== Sys2Proof/Laws/Exec.lean ====
section
/-! SUPPORT. What the operand forms, the ALU and the shared shapes of the meanings give. -/

namespace Sys2Proof.Machine

@[simp] theorem addrAdd_toNat (a : Byte) (n : Nat) : (addrAdd a n).toNat = (a.toNat + n) % 256 := by
  simp [addrAdd]

@[simp] theorem addrAdd_zero (a : Byte) : addrAdd a 0 = a := by simp [addrAdd]

@[simp] theorem memOperand_eq (s : State) (a : Byte) : s.memOperand a = s.memRead a := rfl

@[simp] theorem directAddr_eq (a : Byte) : directAddr a = a := rfl

@[simp] theorem jumpTarget_eq (a : Byte) : jumpTarget a = a := rfl

/-! Reads see memory alone. -/

@[simp] theorem memRead_setAc (s : State) (v b : Byte) : (s.setAc v).memRead b = s.memRead b := rfl

@[simp] theorem memRead_setPc (s : State) (v b : Byte) : (s.setPc v).memRead b = s.memRead b := rfl

@[simp] theorem memRead_advance (s : State) (n : Nat) (b : Byte) : (s.advance n).memRead b = s.memRead b := rfl

@[simp] theorem memRead_stop (s : State) (r : RunStatus) (b : Byte) : (s.stop r).memRead b = s.memRead b := rfl

@[simp] theorem memRead_raise (s : State) (e : Event) (b : Byte) : (s.raise e).memRead b = s.memRead b := by
  cases e <;> rfl

@[simp] theorem memRead_countStep (s : State) (b : Byte) : s.countStep.memRead b = s.memRead b := rfl

/-! The ALU's results as numbers (41_alu.md R108). -/

@[simp] theorem aluAdd_toNat (x y : Byte) : (aluAdd x y).toNat = (x.toNat + y.toNat) % 256 := by simp [aluAdd]

@[simp] theorem aluMul_toNat (x y : Byte) : (aluMul x y).toNat = (x.toNat * y.toNat) % 256 := by simp [aluMul]

@[simp] theorem aluDiv_toNat (x y : Byte) : (aluDiv x y).toNat = x.toNat / y.toNat := by
  simp only [aluDiv, BitVec.toNat_ofNat]
  exact Nat.mod_eq_of_lt (lt_of_le_of_lt (Nat.div_le_self x.toNat y.toNat) x.isLt)

theorem aluSub_eq (x y : Byte) : aluSub x y = x - y := by
  apply BitVec.eq_of_toNat_eq
  simp only [aluSub, BitVec.toNat_ofInt, BitVec.toNat_sub]
  omega

theorem aluNot_eq (x : Byte) : aluNot x = ~~~x := by
  apply BitVec.eq_of_toNat_eq
  have hx := x.isLt
  simp only [aluNot, BitVec.toNat_ofNat, BitVec.toNat_not]
  omega

/-! The conditional jumps' shape, field by field. -/

@[simp] theorem jumpIf_true (s : State) (a : Byte) : s.jumpIf true a = s.setPc a := rfl

@[simp] theorem jumpIf_false (s : State) (a : Byte) : s.jumpIf false a = s.advance 2 := rfl

@[simp] theorem jumpIf_ac (s : State) (b : Bool) (a : Byte) : (s.jumpIf b a).ac = s.ac := by cases b <;> rfl

@[simp] theorem jumpIf_mem (s : State) (b : Bool) (a : Byte) : (s.jumpIf b a).mem = s.mem := by cases b <;> rfl

@[simp] theorem jumpIf_rs (s : State) (b : Bool) (a : Byte) : (s.jumpIf b a).rs = s.rs := by cases b <;> rfl

@[simp] theorem jumpIf_ev (s : State) (b : Bool) (a : Byte) : (s.jumpIf b a).ev = s.ev := by cases b <;> rfl

@[simp] theorem jumpIf_nstep (s : State) (b : Bool) (a : Byte) : (s.jumpIf b a).nstep = s.nstep := by cases b <;> rfl

@[simp] theorem jumpIf_params (s : State) (b : Bool) (a : Byte) : (s.jumpIf b a).params = s.params := by
  cases b <;> rfl

/-! DIV's two cases. -/

theorem execDiv_of_zero {s : State} {a : Byte} (h : s.memRead a = 0#8) :
    execDiv a s = .next ((s.raise (.divisionByZero s.pc)).advance 2) := if_pos h

theorem execDiv_of_ne_zero {s : State} {a : Byte} (h : s.memRead a ≠ 0#8) :
    execDiv a s = .next (s.accumulate aluDiv a) := if_neg h

/-- No meaning faults and none refuses (20_memory.md R42, 60_exceptions.md R143). -/
theorem exec_answers_next (i : Instr) (s : State) : ∃ t, exec i s = .next t := by
  cases i
  case div a =>
    by_cases h : s.memRead a = 0#8
    · exact ⟨_, execDiv_of_zero h⟩
    · exact ⟨_, execDiv_of_ne_zero h⟩
  all_goals exact ⟨_, rfl⟩

/-- The address an instruction stores to, and the byte: STA alone stores (20_memory.md R41). -/
def storeOf (i : Instr) (s : State) : Option (Byte × Byte) :=
  match i with
  | .sta a => some (directAddr a, s.ac)
  | _ => none

/-- What an instruction does to memory: its store, or nothing. -/
theorem exec_mem {i : Instr} {s t : State} (h : exec i s = .next t) :
    t.mem = match storeOf i s with
      | some (a, v) => (s.memWrite a v).mem
      | none => s.mem := by
  cases i
  case div a =>
    by_cases hz : s.memRead a = 0#8
    · rw [exec, execDiv_of_zero hz] at h
      cases h
      simp [storeOf]
    · rw [exec, execDiv_of_ne_zero hz] at h
      cases h
      rfl
  case jn => cases h; simp [storeOf]
  case jz => cases h; simp [storeOf]
  all_goals cases h; rfl

end Sys2Proof.Machine
end

