-- ==== Sys2Proof/Laws/Step.lean ====
section
/-! SUPPORT. What an instruction and a step can do, said once. -/

namespace Sys2Proof.Machine

/-- The fetched bytes of a state with an F1 opcode at PC. -/
theorem fetchBytes_f1 {s : State} {m : Mnemonic} (h : decodeOpcode s.params.opcodeMap (s.memRead s.pc) = some m)
    (hf : formatOf m = .f1) : s.fetchBytes = [s.memRead s.pc, s.memRead (operandAddr s.pc)] := by
  simp [State.fetchBytes, h, hf]

/-- The fetched byte of a state with an F0 opcode at PC. -/
theorem fetchBytes_f0 {s : State} {m : Mnemonic} (h : decodeOpcode s.params.opcodeMap (s.memRead s.pc) = some m)
    (hf : formatOf m = .f0) : s.fetchBytes = [s.memRead s.pc] := by
  simp [State.fetchBytes, h, hf]

/-- An F0 mnemonic makes the same instruction whatever the operand byte. -/
theorem instrOf_f0 {m : Mnemonic} (hf : formatOf m = .f0) (a b : Byte) : instrOf m a = instrOf m b := by
  cases m <;> first | rfl | simp [formatOf] at hf

/-- The decoder on the fetched bytes: the mnemonic of the opcode byte with the byte after it, or unknown. The errors for
missing bytes do not occur. -/
theorem decode_fetchBytes (s : State) :
    (∃ m, decodeOpcode s.params.opcodeMap (s.memRead s.pc) = some m ∧
      decode s.params.opcodeMap s.fetchBytes = .ok (instrOf m (s.memRead (operandAddr s.pc)), [])) ∨
    (decodeOpcode s.params.opcodeMap (s.memRead s.pc) = none ∧
      decode s.params.opcodeMap s.fetchBytes = .error (.unknownOpcode (s.memRead s.pc))) := by
  cases h : decodeOpcode s.params.opcodeMap (s.memRead s.pc) with
  | none => exact .inr ⟨rfl, by simp [State.fetchBytes, h, decode]⟩
  | some m =>
    refine .inl ⟨m, rfl, ?_⟩
    cases hf : formatOf m with
    | f0 =>
      rw [fetchBytes_f0 h hf]
      simp [decode, h, hf, instrOf_f0 hf (s.memRead (operandAddr s.pc)) 0]
    | f1 =>
      rw [fetchBytes_f1 h hf]
      simp [decode, h, hf]

/-- The three things a step can do, guards included (30_encoding.md R70): it stops at the bound, it runs the instruction at PC, or
it raises UnknownOpcode. -/
theorem step_cases {s t : State} (h : step s = .next t) :
    s.rs = .running ∧
      ((s.boundReached = true ∧ t = s.stop .stepLimit) ∨
       (s.boundReached = false ∧ ∃ m, decodeOpcode s.params.opcodeMap (s.memRead s.pc) = some m ∧
          exec (instrOf m (s.memRead (operandAddr s.pc))) s.countStep = .next t) ∨
       (s.boundReached = false ∧ decodeOpcode s.params.opcodeMap (s.memRead s.pc) = none ∧
          t = s.countStep.raise (.unknownOpcode s.pc (s.memRead s.pc)))) := by
  cases hr : s.rs <;> simp only [step, cycle, hr, reduceCtorEq] at h
  refine ⟨rfl, ?_⟩
  cases hb : s.boundReached
  · simp only [hb, Bool.false_eq_true, if_false] at h
    unfold fetchDecodeExecute at h
    rcases decode_fetchBytes s with ⟨m, hm, hd⟩ | ⟨hm, hd⟩
    · rw [hd] at h
      exact .inr (.inl ⟨rfl, m, hm, h⟩)
    · rw [hd] at h
      exact .inr (.inr ⟨rfl, hm, by injection h with h; exact h.symm⟩)
  · simp only [hb, if_true] at h
    exact .inl ⟨rfl, by injection h with h; exact h.symm⟩

/-- A step at the bound. -/
theorem step_at_bound {s : State} (hr : s.rs = .running) (hb : s.boundReached = true) :
    step s = .next (s.stop .stepLimit) := by
  simp only [step, cycle, hr, hb, if_true]

/-- A step at an opcode byte runs the instruction. -/
theorem step_at_opcode {s : State} {m : Mnemonic} (hr : s.rs = .running) (hb : s.boundReached = false)
    (hm : decodeOpcode s.params.opcodeMap (s.memRead s.pc) = some m) :
    step s = exec (instrOf m (s.memRead (operandAddr s.pc))) s.countStep := by
  rcases decode_fetchBytes s with ⟨m', hm', hd⟩ | ⟨hn, -⟩
  · rw [hm] at hm'
    cases hm'
    simp only [step, cycle, hr, hb, fetchDecodeExecute, hd, Bool.false_eq_true, if_false]
  · rw [hm] at hn
    cases hn

/-- A step at a byte that is no opcode. -/
theorem step_at_unknown {s : State} (hr : s.rs = .running) (hb : s.boundReached = false)
    (hn : decodeOpcode s.params.opcodeMap (s.memRead s.pc) = none) :
    step s = .next (s.countStep.raise (.unknownOpcode s.pc (s.memRead s.pc))) := by
  rcases decode_fetchBytes s with ⟨m', hm', -⟩ | ⟨-, hd⟩
  · rw [hn] at hm'
    cases hm'
  · simp only [step, cycle, hr, hb, fetchDecodeExecute, hd, Bool.false_eq_true, if_false]

end Sys2Proof.Machine
end

