-- ==== Sys2Proof/Laws/Block.lean ====
section
/-! SUPPORT. What the block's transactions can do, said once. -/

namespace Sys2Proof.Machine

/-- A load: the fresh state and no error, or no state and the error; the block's parameters stay. -/
theorem Block.load_cases (b : Block) (image : List Byte) :
    (∃ s, Machine.load b.params image = .ok s ∧ b.load image = ⟨b.params, some s, none⟩) ∨
    (∃ e, Machine.load b.params image = .error e ∧ b.load image = ⟨b.params, none, some e⟩) := by
  cases h : Machine.load b.params image with
  | ok s => exact .inl ⟨s, rfl, by simp [Block.load, h]⟩
  | error e => exact .inr ⟨e, rfl, by simp [Block.load, h]⟩

/-- A step of the block is a step of its CPU state and changes nothing else of the block. -/
theorem Block.step_eq_some {b b' : Block} :
    b.step = some b' ↔ ∃ s t, b.cpu = some s ∧ Machine.step s = .next t ∧ b' = { b with cpu := some t } := by
  cases hc : b.cpu with
  | none => simp [Block.step, hc]
  | some s =>
    cases hs : Machine.step s <;> simp [Block.step, hc, hs, eq_comm]

@[simp] theorem Block.setMaxSteps_params (b : Block) (k : Option Nat) :
    (b.setMaxSteps k).params = { b.params with maxSteps := k } := rfl
@[simp] theorem Block.setMaxSteps_loadError (b : Block) (k : Option Nat) : (b.setMaxSteps k).loadError = b.loadError := rfl
@[simp] theorem Block.setMaxSteps_cpu (b : Block) (k : Option Nat) :
    (b.setMaxSteps k).cpu = b.cpu.map (fun s => s.boundBeforeRun k) := rfl

end Sys2Proof.Machine
end

