-- ==== Sys2Proof/Laws/PerInstr.lean ====
section
/-! SUPPORT. Statements about each instruction as syntax, one lemma for each constructor. -/

namespace Sys2Proof.Laws.EncodesInFormat

/-- Under every OPCODE_MAP the encoding begins with the mnemonic's byte and has its format's length
(30_encoding.md R60, R61, R65). -/
def Statement (i : Instr) : Prop :=
  ∀ map : OpcodeMap, (encode map i).head? = some (map.byteOf i.mnemonic) ∧
    (encode map i).length = (formatOf i.mnemonic).length

theorem nop : Statement .nop := fun _ => ⟨rfl, rfl⟩

theorem lda (a : Byte) : Statement (.lda a) := fun _ => ⟨rfl, rfl⟩

theorem sta (a : Byte) : Statement (.sta a) := fun _ => ⟨rfl, rfl⟩

theorem add (a : Byte) : Statement (.add a) := fun _ => ⟨rfl, rfl⟩

theorem sub (a : Byte) : Statement (.sub a) := fun _ => ⟨rfl, rfl⟩

theorem mul (a : Byte) : Statement (.mul a) := fun _ => ⟨rfl, rfl⟩

theorem div (a : Byte) : Statement (.div a) := fun _ => ⟨rfl, rfl⟩

theorem or (a : Byte) : Statement (.or a) := fun _ => ⟨rfl, rfl⟩

theorem and (a : Byte) : Statement (.and a) := fun _ => ⟨rfl, rfl⟩

theorem not : Statement .not := fun _ => ⟨rfl, rfl⟩

theorem jmp (a : Byte) : Statement (.jmp a) := fun _ => ⟨rfl, rfl⟩

theorem jn (a : Byte) : Statement (.jn a) := fun _ => ⟨rfl, rfl⟩

theorem jz (a : Byte) : Statement (.jz a) := fun _ => ⟨rfl, rfl⟩

theorem hlt : Statement .hlt := fun _ => ⟨rfl, rfl⟩

end Sys2Proof.Laws.EncodesInFormat
end

