-- ==== Sys2Proof/Laws/Safety.lean ====
section
/-! SUPPORT. Small lemmas about the words of Safety.lean. -/

namespace Sys2Proof.Machine

/-- One byte stands at an address. -/
theorem holdsAt_one {s : State} {a x : Byte} : s.holdsAt a [x] ↔ s.memRead a = x := by
  constructor
  · intro h
    simpa using h 0 x rfl
  · intro h k b hb
    cases k with
    | zero => simpa [h] using hb
    | succ k => simp at hb

/-- Two bytes stand at an address and the one after it. -/
theorem holdsAt_two {s : State} {a x y : Byte} :
    s.holdsAt a [x, y] ↔ s.memRead a = x ∧ s.memRead (addrAdd a 1) = y := by
  constructor
  · intro h
    exact ⟨by simpa using h 0 x rfl, h 1 y rfl⟩
  · rintro ⟨h0, h1⟩ k b hb
    match k with
    | 0 => simpa [h0] using hb
    | 1 => simpa [h1] using hb
    | k + 2 => simp at hb

/-- What a running state with no UnknownOpcode report needs for the invariant. -/
theorem inv_of_running {s : State} (hr : s.rs = .running) (hw : Memory.wf s.mem) (he : s.ev.length ≤ s.nstep)
    (hb : s.withinBound) (hu : s.ev.all (fun e => !e.isUnknown) = true) : s.inv :=
  ⟨hw, he, hb, by simpa only [State.statusExplained, hr] using hu⟩

end Sys2Proof.Machine
end

