-- ==== Sys2Proof/Tests/Slice0.lean ====
section
/-! SUPPORT. Tests: words written out from 30_encoding.md R60 to R62, the vectors of 95_test_vectors.md, and the witnesses of the
statements' hypotheses. -/

namespace Sys2Proof.Tests

open Sys2Proof Sys2Proof.Machine

/-- The next state, if there is one. -/
def after : Result → Option State
  | .next t => some t
  | .fault _ => none
  | .refused _ => none

/-- The vectors' start (95_test_vectors.md, section 2): PC = 10, M[10] = op, M[11] = operand, M[80] = m, and AC. -/
def start (op operand m ac : Byte) : State :=
  { (((State.reset.memWrite 0x10 op).memWrite 0x11 operand).memWrite 0x80 m) with ac := ac, pc := 0x10 }

/-- AC, PC and EV after a step at the vectors' start. -/
def alu (op m ac : Byte) : Option (Byte × Byte × List Event) :=
  (after (step (start op 0x80 m ac))).map (fun t => (t.ac, t.pc, t.ev))

/-- PC and RS after a step at the vectors' start, with operand 40. -/
def jump (op ac : Byte) : Option (Byte × RunStatus) :=
  (after (step (start op 0x40 0 ac))).map (fun t => (t.pc, t.rs))

/-! ## Decoding: a word for every constructor, bit by bit from 30_encoding.md R62 -/

theorem test_decode_transfer :
    decode defaultOpcodeMap [0b00000000#8] = .ok (.nop, []) ∧
    decode defaultOpcodeMap [0b00100000#8, 0b10000001#8] = .ok (.lda 0x81, []) ∧
    decode defaultOpcodeMap [0b00010000#8, 0b10000010#8, 0b11111111#8] = .ok (.sta 0x82, [0xFF]) := by decide

theorem test_decode_alu :
    decode defaultOpcodeMap [0b00110000#8, 0b00000001#8] = .ok (.add 0x01, []) ∧
    decode defaultOpcodeMap [0b01110000#8, 0b00000010#8] = .ok (.sub 0x02, []) ∧
    decode defaultOpcodeMap [0b11000000#8, 0b00000100#8] = .ok (.mul 0x04, []) ∧
    decode defaultOpcodeMap [0b11010000#8, 0b00001000#8] = .ok (.div 0x08, []) ∧
    decode defaultOpcodeMap [0b01000000#8, 0b00010000#8] = .ok (.or 0x10, []) ∧
    decode defaultOpcodeMap [0b01010000#8, 0b00100000#8] = .ok (.and 0x20, []) ∧
    decode defaultOpcodeMap [0b01100000#8, 0b01000000#8] = .ok (.not, [0x40]) := by decide

theorem test_decode_control :
    decode defaultOpcodeMap [0b10000000#8, 0b11111111#8] = .ok (.jmp 0xFF, []) ∧
    decode defaultOpcodeMap [0b10010000#8, 0b00000101#8] = .ok (.jn 0x05, []) ∧
    decode defaultOpcodeMap [0b10100000#8, 0b00010000#8] = .ok (.jz 0x10, []) ∧
    decode defaultOpcodeMap [0b11110000#8] = .ok (.hlt, []) := by decide

theorem test_decode_refuses_by_name :
    decode defaultOpcodeMap [0x21, 0x80] = .error (.unknownOpcode 0x21) ∧
    decode defaultOpcodeMap [] = .error .noBytes ∧
    decode defaultOpcodeMap [0x20] = .error (.missingOperand .lda) := by decide

theorem test_table_word :
    decodeTableWord 16 0b1000001100010000 = some (.sta 0x83) ∧ decodeTableWord 8 0x8310 = some (.sta 0x00) ∧
    decodeTableWord 8 0xF0 = some .hlt ∧ decodeTableWord 16 0x80B0 = none := by decide

theorem test_first_step_after_reset_runs_the_word :
    (after (step (State.reset.withFetchWord 16 0x4080))).map (fun t => (t.pc, t.nstep)) = some (0x40, 1) := by decide

/-! ## WellFormed: an ill-formed term for each check -/

/-- A map in which DIV has MUL's byte. -/
def clashingMap : OpcodeMap := { defaultOpcodeMap with div := 0xC0 }

theorem test_map_wf_refuses_a_clash : defaultOpcodeMap.wf ∧ ¬ clashingMap.wf := by decide

theorem test_instr_wf_refuses_an_ambiguous_byte :
    Instr.wf defaultOpcodeMap (.mul 0x80) ∧ ¬ Instr.wf clashingMap (.mul 0x80) ∧ Instr.wf clashingMap (.add 0x80) := by
  decide

/-! ## NOP, LDA, STA: V1 to V8 -/

theorem test_nop : alu 0x00 0 0x37 = some (0x37, 0x11, []) := by decide

theorem test_nop_at_ff :
    (after (step { State.reset with pc := 0xFF })).map State.pc = some 0x00 := by decide

theorem test_lda : alu 0x20 0x05 0 = some (0x05, 0x12, []) := by decide

theorem test_lda_at_ff :
    (after (step { ((State.reset.memWrite 0xFF 0x20).memWrite 0x00 0x80).memWrite 0x80 0x77 with pc := 0xFF })).map
      (fun t => (t.ac, t.pc)) = some (0x77, 0x01) := by decide

theorem test_sta :
    (after (step (start 0x10 0x80 0 0x08))).map (fun t => (t.memRead 0x80, t.ac, t.pc)) = some (0x08, 0x08, 0x12) := by decide

theorem test_sta_onto_its_own_opcode :
    (after (step (start 0x10 0x10 0 0x55))).map (fun t => (t.memRead 0x10, t.pc)) = some (0x55, 0x12) := by decide

/-! ## ALU: V10 to V43, W1, W2 -/

theorem test_add : alu 0x30 0x03 0x05 = some (0x08, 0x12, []) ∧ alu 0x30 0x01 0xFF = some (0x00, 0x12, []) := by decide

theorem test_sub : alu 0x70 0x05 0x03 = some (0xFE, 0x12, []) ∧ alu 0x70 0x01 0x80 = some (0x7F, 0x12, []) := by decide

theorem test_mul : alu 0xC0 0xFF 0xFF = some (0x01, 0x12, []) ∧ alu 0xC0 0x56 0x03 = some (0x02, 0x12, []) := by decide

theorem test_div : alu 0xD0 0x02 0xFE = some (0x7F, 0x12, []) ∧ alu 0xD0 0x10 0xFF = some (0x0F, 0x12, []) := by decide

theorem test_div_by_zero : alu 0xD0 0x00 0x2A = some (0x2A, 0x12, [.divisionByZero 0x10]) := by decide

theorem test_or : alu 0x40 0x90 0x03 = some (0x93, 0x12, []) := by decide

theorem test_and : alu 0x50 0x0F 0xA5 = some (0x05, 0x12, []) := by decide

theorem test_not : alu 0x60 0x80 0xB0 = some (0x4F, 0x11, []) := by decide

/-- The note after V43: with NOT_PC_ADVANCE = 2. -/
theorem test_not_advance_two :
    (after (step { start 0x60 0x80 0 0x00 with params := { defaultParams with notPcAdvance := .two } })).map
      (fun t => (t.ac, t.pc)) = some (0xFF, 0x12) := by decide

/-! ## Control: V50 to V60 -/

theorem test_jmp : jump 0x80 0x33 = some (0x40, .running) := by decide

theorem test_jn : jump 0x90 0x80 = some (0x40, .running) ∧ jump 0x90 0x7F = some (0x12, .running) := by decide

theorem test_jz : jump 0xA0 0x00 = some (0x40, .running) ∧ jump 0xA0 0x80 = some (0x12, .running) := by decide

theorem test_hlt : jump 0xF0 0x12 = some (0x10, .halted) := by decide

/-! ## Decode, conditions and loader: V70 to V77 -/

theorem test_unknown_opcode :
    (after (step (State.reset.memWrite 0x00 0x21))).map (fun t => (t.rs, t.pc, t.ac, t.ev, t.nstep)) =
      some (.unknownOpcode, 0x00, 0x00, [.unknownOpcode 0x00 0x21], 1) := by decide

theorem test_bound_zero :
    (after (step { State.reset with params := { defaultParams with maxSteps := some 0 } })).map
      (fun t => (t.rs, t.nstep, t.pc)) = some (.stepLimit, 0, 0x00) := by decide

theorem test_step_after_halt_is_stuck : step { State.reset with rs := .halted } = .fault (.runEnded .halted) := rfl

set_option maxRecDepth 8000 in
theorem test_image_too_small : load defaultParams (List.replicate 259 0) = .error .imageTooSmall := by decide

set_option maxRecDepth 8000 in
theorem test_long_image_and_bad_header :
    (load defaultParams ([0, 0, 0, 0, 0xF0] ++ List.replicate 254 0 ++ [0x77, 0xAB])).toOption.map State.mem =
      some [(0x00, 0xF0), (0xFF, 0x77)] := by decide

/-- The block with the reset state loaded. -/
def loadedBlock : Block := { Block.powerOn defaultParams with cpu := some State.reset }

set_option maxRecDepth 8000 in
theorem test_failed_load_leaves_no_state :
    (((Block.powerOn defaultParams).load (List.replicate 260 0)).load []).cpu = none := by decide

/-- Load, then the bound, then the run (R158): the bound 0 stops the first step; set after one step, it does not touch the run. -/
theorem test_bound_set_before_and_during_a_run :
    ((loadedBlock.act (.setMaxSteps (some 0))).bind (·.act .step)).map (fun b => b.cpu.map State.rs) =
      some (some .stepLimit) ∧
    (((loadedBlock.act .step).bind (·.act (.setMaxSteps (some 0)))).bind (·.act .step)).map
      (fun b => b.cpu.map (fun s => (s.rs, s.nstep))) = some (some (.running, 2)) := by decide

/-! ## The assembler: P1 (W6), P6 -/

set_option maxRecDepth 8000 in
theorem test_assemble_end_to_end :
    (assemble defaultOpcodeMap
      ".DATA\nA DB 5\nB DB 3\n.CODE\n.ORG 0\n  lda A ; comment\nADD B\nSTA A\nHLT\n".toList).toOption.map
      (fun image => (image.take 11, (image.drop 0x84).take 2, image.length)) =
      some ([0x03, 0x4E, 0x44, 0x52, 0x20, 0x80, 0x30, 0x81, 0x10, 0x80, 0xF0], [0x05, 0x03], 260) := by decide

theorem test_assembler_refuses_names :
    assemble defaultOpcodeMap ".CODE\nSTA X\nHLT".toList = .error ⟨.unresolvedSymbol, 2⟩ ∧
    assemble defaultOpcodeMap ".CODE\nFOO".toList = .error ⟨.unknownOpcode, 2⟩ ∧
    assemble defaultOpcodeMap ".CODE\nNOP X".toList = .error ⟨.arityMismatch, 2⟩ ∧
    assemble defaultOpcodeMap ".DATA\nV DB 256".toList = .error ⟨.invalidLiteral, 2⟩ := by decide

theorem test_assembler_refuses_clashes :
    assemble defaultOpcodeMap ".DATA\nV DB 1\n.CODE\nV:".toList = .error ⟨.duplicateSymbol, 4⟩ ∧
    assemble defaultOpcodeMap ".DATA\nV DB 1\n.CODE\n.ORG 0x80\nHLT".toList = .error ⟨.overlap, 5⟩ ∧
    assemble defaultOpcodeMap ".CODE\n.ORG 0xFF\nLDA L\nL:".toList = .error ⟨.codeOverflow, 3⟩ ∧
    assemble defaultOpcodeMap "\nA DB 1".toList = .error ⟨.syntaxError, 2⟩ := by decide

theorem test_literals :
    literal ['0', 'x', 'f', 'F'] = some 0xFF ∧ literal ['2', '5', '5'] = some 0xFF ∧ literal ['2', '5', '6'] = none ∧
    literal ['0', 'X'] = none ∧ literal ['-', '1'] = none := by decide

/-! ## Witnesses: for each statement with hypotheses, a state and operands that meet them -/

/-- Of StaStoresAcAndNothingElse. -/
theorem witness_canonical_memory : Memory.wf (start 0x10 0x80 0x05 0x08).mem := by decide

/-- Of DivQuotientOrReport: both cases, at the boundary 0 and 1. -/
theorem witness_divisor : (start 0xD0 0x80 1 7).memRead 0x80 ≠ 0#8 ∧ (start 0xD0 0x80 0 7).memRead 0x80 = 0#8 := by decide

/-- Of NotComplementsAc: both advances. -/
theorem witness_not_advance : State.reset.params.notPcAdvance = .one ∧
    ({ State.reset with params := { defaultParams with notPcAdvance := .two } } : State).params.notPcAdvance = .two := by
  decide

/-- Of JnJumpsIffBit7 and JzJumpsIffZero: each clause, where the clauses meet. -/
theorem witness_jump_conditions :
    128 ≤ (start 0x90 0x40 0 0x80).ac.toNat ∧ (start 0x90 0x40 0 0x7F).ac.toNat < 128 ∧
    (start 0xA0 0x40 0 0).ac = 0#8 ∧ (start 0xA0 0x40 0 1).ac ≠ 0#8 := by decide

/-- Of HltStopsInPlace: a step at HLT. -/
theorem witness_hlt_step : (start 0xF0 0 0 0).rs = .running ∧ (start 0xF0 0 0 0).boundReached = false ∧
    decodeOpcode (start 0xF0 0 0 0).params.opcodeMap ((start 0xF0 0 0 0).memRead 0x10) = some .hlt := by decide

/-- An LDA at FF whose operand is at 00. -/
def ldaAtFF : State :=
  { ((State.reset.memWrite 0xFF 0x20).memWrite 0x00 0x80).memWrite 0x80 0x77 with pc := 0xFF }

/-- Of StepRunsTheInstructionAtPc and StepMakesTheAccessesOfTheTable: an instruction across the wrap at 0xFF. -/
theorem witness_instruction_at_pc : ldaAtFF.rs = .running ∧ ldaAtFF.boundReached = false ∧
    Instr.wf ldaAtFF.params.opcodeMap (.lda 0x80) ∧
    ldaAtFF.holdsAt ldaAtFF.pc (encode ldaAtFF.params.opcodeMap (.lda 0x80)) :=
  ⟨by decide, by decide, by decide, holdsAt_two.2 (by decide)⟩

/-- Of StepMakesTheAccessesOfTheTable: the other shapes, STA, a jump, an F0 instruction and an unknown byte. -/
theorem witness_access_shapes :
    (start 0x10 0x80 0 0).holdsAt 0x10 (encode defaultOpcodeMap (.sta 0x80)) ∧
    (start 0x80 0x40 0 0).holdsAt 0x10 (encode defaultOpcodeMap (.jmp 0x40)) ∧
    (start 0x60 0 0 0).holdsAt 0x10 (encode defaultOpcodeMap .not) ∧
    decodeOpcode defaultOpcodeMap ((start 0x21 0 0 0).memRead 0x10) = none :=
  ⟨holdsAt_two.2 (by decide), holdsAt_two.2 (by decide), holdsAt_one.2 (by decide), by decide⟩

/-- Of StepIsDefinedExactlyWhileRunning: a state on each side. -/
theorem witness_run_status : State.reset.rs = .running ∧ ({ State.reset with rs := .stepLimit } : State).rs ≠ .running := by
  decide

/-- A state at its bound. -/
def atBound : State := { State.reset with params := { defaultParams with maxSteps := some 0 } }

/-- Of RunStatusTransitions: a step to each of the three ends, the bound's from a state at the bound. -/
theorem witness_three_ends :
    (after (step atBound)).map State.rs = some .stepLimit ∧
    (after (step (start 0xB0 0 0 0))).map State.rs = some .unknownOpcode ∧
    (after (step (start 0xF0 0 0 0))).map State.rs = some .halted := by decide

/-- Of NoOtherConditionIsRaised and ConditionsArePrecise: a DIV by zero, and a byte that is no opcode. -/
theorem witness_conditions :
    (start 0xD0 0x80 0 7).rs = .running ∧ (start 0xD0 0x80 0 7).boundReached = false ∧
    decodeOpcode defaultOpcodeMap ((start 0xD0 0x80 0 7).memRead 0x10) = some .div ∧
    (start 0xD0 0x80 0 7).memRead ((start 0xD0 0x80 0 7).memRead (operandAddr 0x10)) = 0#8 ∧
    (start 0xE0 0 0 0).boundReached = false ∧ decodeOpcode defaultOpcodeMap ((start 0xE0 0 0 0).memRead 0x10) = none := by
  decide

/-- Of WhichInstructionsTouchAc: an instruction of each clause answers a next state. -/
theorem witness_touch_ac :
    exec (.jmp 0x40) State.reset = .next (State.reset.setPc 0x40) ∧
    exec (.div 0x80) (start 0xD0 0x80 0 7) =
      .next (((start 0xD0 0x80 0 7).raise (.divisionByZero 0x10)).advance 2) ∧
    exec .hlt State.reset = .next (State.reset.stop .halted) := ⟨rfl, rfl, rfl⟩

/-- Of NoRecordOfDiscardedBits: exact results that differ and agree mod 256, for each of the three. -/
theorem witness_discarded_bits :
    (start 0 0 0x01 0xFF).pc = (start 0 0 0 0).pc ∧ SameBookkeeping (start 0 0 0x01 0xFF) (start 0 0 0 0) ∧
    ((0xFF + 0x01) % 256 = (0 + 0) % 256 ∧ (0xFF : Nat) + 0x01 ≠ 0 + 0) ∧
    (start 0 0 0x01 0xFF).memRead 0x80 = 0x01 ∧ (start 0 0 0 0).memRead 0x80 = 0 ∧
    ((3 : Int) - 5) % 256 = (254 - 0) % 256 ∧ (16 * 16) % 256 = (0 * 16) % 256 :=
  ⟨rfl, ⟨rfl, rfl, rfl, rfl⟩, by decide, by decide, by decide, by decide, by decide⟩

/-- Of SubAndMulAgreeWithSigned: the worked case of R109, and DIV answers there. -/
theorem witness_signed_div : (start 0xD0 0x80 0x02 0xFE).ac = 0xFE ∧ (start 0xD0 0x80 0x02 0xFE).memRead 0x80 = 0x02 ∧
    exec (.div 0x80) (start 0xD0 0x80 0x02 0xFE) = .next ((start 0xD0 0x80 0x02 0xFE).accumulate aluDiv 0x80) :=
  ⟨rfl, by decide, rfl⟩

/-- Of EventLogAndStepCountAreNotRead: two states that differ in EV and NSTEP, and a step. -/
theorem witness_same_core :
    SameCore (start 0x30 0x80 1 2) { start 0x30 0x80 1 2 with ev := [.divisionByZero 0], nstep := 9 } ∧
    (start 0x30 0x80 1 2).params.maxSteps = none ∧ (after (step (start 0x30 0x80 1 2))).isSome = true :=
  ⟨⟨rfl, rfl, rfl, rfl, rfl⟩, rfl, by decide⟩

/-- Of LatchedFlagsGiveTheSameSteps: flip-flops in agreement, at a JN. -/
theorem witness_latched : Latched.inSync ⟨start 0x90 0x40 0 0x80, true, false⟩ := ⟨by decide, by decide⟩

/-- Of StepWritesOnlyItsDataWrite: a step with a data write. -/
theorem witness_data_write : Memory.wf (start 0x10 0x80 0 8).mem ∧
    stepAccesses (start 0x10 0x80 0 8) =
      [⟨.opcodeFetch, 0x10, 0x10⟩, ⟨.operandFetch, 0x11, 0x80⟩, ⟨.dataWrite, 0x80, 8⟩] ∧
    (after (step (start 0x10 0x80 0 8))).isSome = true := by decide

/-- Of StepReadsOnlyItsAccesses: another memory that agrees in the bytes read and differs elsewhere. -/
theorem witness_other_memory : Memory.wf ldaAtFF.mem ∧ Memory.wf (ldaAtFF.memWrite 0x90 1).mem ∧
    (∀ x ∈ stepAccesses ldaAtFF, x.isRead = true →
      Memory.read (ldaAtFF.memWrite 0x90 1).mem x.addr.toNat = ldaAtFF.memRead x.addr) ∧
    (ldaAtFF.memWrite 0x90 1).mem ≠ ldaAtFF.mem ∧ (after (step ldaAtFF)).isSome = true := by decide

/-- A STA to the byte after it, where an LDA's operand stands. -/
def selfModifying : State := { (start 0x10 0x13 0 0x90).memWrite 0x12 0x20 with ac := 0x90 }

/-- Of ReadsReturnTheLatestWrite: in two steps, an operand fetch of a byte written before it. -/
theorem witness_read_after_write : Memory.wf selfModifying.mem ∧
    runAccesses 2 selfModifying =
      [⟨.opcodeFetch, 0x10, 0x10⟩, ⟨.operandFetch, 0x11, 0x13⟩, ⟨.dataWrite, 0x13, 0x90⟩, ⟨.opcodeFetch, 0x12, 0x20⟩] ++
        ⟨.operandFetch, 0x13, 0x90⟩ :: [⟨.dataRead, 0x90, 0⟩] := by decide

/-- Of FetchSeesTheStoreBeforeIt: a store to the next operand byte, and one to the next opcode byte. -/
theorem witness_store_before_fetch :
    selfModifying.holdsAt 0x10 (encode defaultOpcodeMap (.sta 0x13)) ∧
    (after (step selfModifying)).map (fun t => (operandAddr t.pc, t.fetchBytes)) = some (0x13, [0x20, 0x90]) ∧
    (start 0x10 0x12 0 0xF0).holdsAt 0x10 (encode defaultOpcodeMap (.sta 0x12)) ∧
    (after (step (start 0x10 0x12 0 0xF0))).map (fun t => (t.pc, t.fetchBytes)) = some (0x12, [0xF0]) ∧
    Memory.wf selfModifying.mem ∧ selfModifying.boundReached = false ∧ Instr.wf defaultOpcodeMap (.sta 0x13) :=
  ⟨holdsAt_two.2 (by decide), by decide, holdsAt_two.2 (by decide), by decide, by decide, by decide, by decide⟩

/-- Of CanonicalMemoriesAreEqual: a memory reached by two orders of writing. -/
theorem witness_two_orders : Memory.wf (Memory.write (Memory.write [] 5 1) 3 2) ∧
    Memory.wf (Memory.write (Memory.write (Memory.write [] 3 2) 9 7) 5 1) ∧
    Memory.write (Memory.write [] 5 1) 3 2 =
      Memory.write (Memory.write (Memory.write (Memory.write [] 3 2) 9 7) 5 1) 9 0 := by decide

/-- Of DecodeEncodeRoundTrip and DecodedBytesAreTheEncoding. -/
theorem witness_well_formed : defaultOpcodeMap.wf ∧ Instr.wf defaultOpcodeMap (.lda 0xFF) ∧
    decode defaultOpcodeMap [0x20, 0xFF, 0x60] = .ok (.lda 0xFF, [0x60]) := by decide

set_option maxRecDepth 8000 in
/-- Of LoadGivesTheResetValues, LoadLooksAtLengthAndPayloadOnly and FirstStepFetchesAddressZero: the shortest image. -/
theorem witness_image : (List.replicate 260 (0x00 : Byte)).length = 260 ∧ (List.replicate 259 (0x00 : Byte)).length < 260 ∧
    (load defaultParams (List.replicate 260 0x00)).toOption.isSome = true ∧ defaultParams.maxSteps ≠ some 0 := by decide

/-- Of EveryStepKeepsTheInvariant: a state, and the step it takes. -/
theorem witness_invariant : State.inv (start 0xD0 0x80 0 7) ∧ (after (step (start 0xD0 0x80 0 7))).isSome = true :=
  ⟨inv_of_running rfl (by decide) (by decide) (fun _ h => nomatch h) (by decide), by decide⟩

set_option maxRecDepth 8000 in
/-- Of EveryTransactionKeepsTheInvariant: the loads at the boundary of 260 bytes, and a block on which each transaction answers. -/
theorem witness_block : (∀ s, loadedBlock.cpu = some s → s.inv) ∧
    (loadedBlock.act (.load (List.replicate 259 0))).isSome = true ∧
    (loadedBlock.act (.load (List.replicate 260 0))).isSome = true ∧ (loadedBlock.act .step).isSome = true ∧
    (loadedBlock.act (.setMaxSteps (some 3))).isSome = true :=
  ⟨(fun _ h => Option.some.inj h ▸ inv_of_running rfl (by decide) (by decide) (fun _ h => nomatch h) (by decide)),
    by decide, by decide, by decide, by decide⟩

/-- Of EveryTransactionKeepsTheInvariant, setting MAX_STEPS: no state, a run not begun, a run begun, a run ended. -/
theorem witness_block_bound : (Block.powerOn defaultParams).cpu = none ∧
    (State.reset.rs = .running ∧ State.reset.nstep = 0) ∧
    (State.reset.countStep.rs = .running ∧ State.reset.countStep.nstep ≠ 0) ∧ (State.reset.stop .halted).rs ≠ .running := by
  decide

/-- Of RunAppendsEventsAndKeepsParameters and RunningCountsEveryStep: a run that ended, and one that runs. -/
theorem witness_runs : (runFor 1 (start 0xF0 0 0 0)).rs ≠ .running ∧ (runFor 2 State.reset).rs = .running := by decide

/-- Of BoundedRunEnds: at the boundary, no step and one step. -/
theorem witness_bound : atBound.params.maxSteps = some 0 ∧ 0 < atBound.nstep + 1 ∧
    ({ atBound with params := { defaultParams with maxSteps := some 1 } } : State).params.maxSteps = some 1 := by decide

/-- Of ZeroMemoryNeverHalts. -/
theorem witness_zero_memory : State.reset.rs = .running ∧ State.reset.params.maxSteps = none ∧
    State.reset.params.opcodeMap.nop = 0x00 ∧ Instr.wf State.reset.params.opcodeMap .nop ∧
    ∀ b : Byte, State.reset.memRead b = 0x00 := ⟨rfl, rfl, rfl, by decide, fun _ => rfl⟩

set_option maxRecDepth 8000 in
/-- Of LayoutHasNoClash, AssembledImageLoads and AssembledMemoryIsTheLayout: a source with data, a label and code. -/
theorem witness_source :
    (layout ".DATA\nK DB 0xF0\n.CODE\nstart:\nLDA K\nJMP start".toList).toOption =
      some ⟨[⟨['K'], 0x80, 0xF0⟩], [⟨['s', 't', 'a', 'r', 't'], 0⟩],
        [⟨5, 0, .lda, some ['K']⟩, ⟨6, 2, .jmp, some ['s', 't', 'a', 'r', 't']⟩]⟩ ∧
    (assemble defaultOpcodeMap ".DATA\nK DB 0xF0\n.CODE\nstart:\nLDA K\nJMP start".toList).toOption.isSome = true := by
  decide

/-- Of UnresolvedNameNeverAssembles: a layout with an operand in neither table. -/
theorem witness_unresolved :
    (layout ".CODE\nSTA X".toList).toOption = some ⟨[], [], [⟨2, 0, .sta, some ['X']⟩]⟩ ∧
    resolve ⟨[], [], [⟨2, 0, .sta, some ['X']⟩]⟩ ['X'] = none := by decide

end Sys2Proof.Tests
end

/-! PROOFS. The registers of 10_state.md: which instructions read and write AC, and what the ALU keeps of an exact result. -/

namespace Sys2Proof.Machine

/-! ## The two-operand ALU shape -/

@[simp] theorem accumulate_ac (s : State) (f : Byte → Byte → Byte) (a : Byte) :
    (s.accumulate f a).ac = f s.ac (s.memRead a) := rfl

@[simp] theorem accumulate_pc (s : State) (f : Byte → Byte → Byte) (a : Byte) :
    (s.accumulate f a).pc = addrAdd s.pc 2 := rfl

theorem accumulate_sameBookkeeping {s s' : State} (h : SameBookkeeping s s') (f : Byte → Byte → Byte) (a : Byte) :
    SameBookkeeping (s.accumulate f a) (s'.accumulate f a) := h

/-! ## AC after an instruction -/

/-- AC after an instruction, as a function of AC and of the byte at the operand address (10_state.md R21). -/
def acResult (m : Mnemonic) (ac v : Byte) : Byte :=
  match m with
  | .lda => v
  | .add => aluAdd ac v
  | .sub => aluSub ac v
  | .mul => aluMul ac v
  | .div => if v = 0#8 then ac else aluDiv ac v
  | .or => aluOr ac v
  | .and => aluAnd ac v
  | .not => aluNot ac
  | .nop | .sta | .jmp | .jn | .jz | .hlt => ac

/-- Every instruction is one the decoder builds, from its mnemonic and some operand byte. -/
theorem exists_eq_instrOf (i : Instr) : ∃ a, i = instrOf i.mnemonic a :=
  ⟨i.operand.getD 0, by cases i <;> rfl⟩

/-- What an instruction does to AC. -/
theorem exec_ac {m : Mnemonic} {a : Byte} {s t : State} (h : exec (instrOf m a) s = .next t) :
    t.ac = acResult m s.ac (s.memRead a) := by
  cases m
  case div =>
    change execDiv a s = .next t at h
    by_cases hz : s.memRead a = 0#8
    · rw [execDiv_of_zero hz] at h
      cases h
      simp [acResult, hz]
    · rw [execDiv_of_ne_zero hz] at h
      cases h
      simp [acResult, hz]
  case jn => cases h; exact jumpIf_ac s s.flagN a
  case jz => cases h; exact jumpIf_ac s s.flagZ a
  all_goals cases h; rfl

/-- R21's instructions that do not write AC. -/
theorem acResult_of_not_writer {m : Mnemonic} (hm : m ∈ [Mnemonic.nop, .sta, .jmp, .jn, .jz, .hlt])
    (ac v : Byte) : acResult m ac v = ac := by
  fin_cases hm <;> rfl

/-- A state with 5 in AC and 3 at `a`, in which every instruction that writes AC changes it. PC is at `a` too, so that a
jump to `a` and the advance past the instruction part for every `a`. -/
def acProbe (a : Byte) : State := { State.reset with ac := 5, pc := a, mem := [(a.toNat, 3)] }

@[simp] theorem acProbe_ac (a : Byte) : (acProbe a).ac = 5 := rfl

@[simp] theorem acProbe_memRead (a : Byte) : (acProbe a).memRead a = 3 := by
  simp [acProbe, State.memRead, Memory.read]

/-- Every instruction that writes AC changes it from some state. -/
theorem exists_exec_ac_ne (a : Byte) {m : Mnemonic}
    (hm : m ∈ [Mnemonic.lda, .add, .sub, .mul, .div, .or, .and, .not]) :
    ∃ s t, exec (instrOf m a) s = .next t ∧ t.ac ≠ s.ac := by
  obtain ⟨t, ht⟩ := exec_answers_next (instrOf m a) (acProbe a)
  have hne : ∀ m ∈ [Mnemonic.lda, .add, .sub, .mul, .div, .or, .and, .not], acResult m 5 3 ≠ 5 := by decide
  refine ⟨acProbe a, t, ht, ?_⟩
  rw [exec_ac ht, acProbe_memRead]
  exact hne m hm

/-- Every ALU instruction can give another AC from another AC. -/
theorem exists_exec_ac_dependsOn_ac (a : Byte) {m : Mnemonic}
    (hm : m ∈ [Mnemonic.add, .sub, .mul, .div, .or, .and, .not]) :
    ∃ (s : State) (v : Byte) (t t' : State), exec (instrOf m a) s = .next t ∧
      exec (instrOf m a) (s.setAc v) = .next t' ∧ t'.ac ≠ t.ac := by
  obtain ⟨t, ht⟩ := exec_answers_next (instrOf m a) (acProbe a)
  obtain ⟨t', ht'⟩ := exec_answers_next (instrOf m a) ((acProbe a).setAc 0)
  have hne : ∀ m ∈ [Mnemonic.add, .sub, .mul, .div, .or, .and, .not], acResult m 0 3 ≠ acResult m 5 3 := by decide
  refine ⟨acProbe a, 0, t, t', ht, ht', ?_⟩
  rw [exec_ac ht, exec_ac ht', memRead_setAc, acProbe_memRead]
  exact hne m hm

/-! ## The instructions that read AC and do not write it -/

theorem addrAdd_two_ne (a : Byte) : addrAdd a 2 ≠ a := by
  intro h
  have := congrArg BitVec.toNat h
  rw [addrAdd_toNat] at this
  omega

/-- STA leaves AC at its address. -/
theorem exec_sta_memRead {a : Byte} {s t : State} (hw : Memory.wf s.mem) (h : exec (.sta a) s = .next t) :
    t.memRead a = s.ac := by
  cases h
  exact (State.memRead_memWrite hw a s.ac a).trans (if_pos rfl)

/-- STA stores another byte from another AC. -/
theorem sta_dependsOn_ac (a : Byte) :
    ∃ (s : State) (v : Byte) (t t' : State), exec (.sta a) s = .next t ∧
      exec (.sta a) (s.setAc v) = .next t' ∧ t'.setAc t.ac ≠ t := by
  obtain ⟨t, ht⟩ := exec_answers_next (.sta a) State.reset
  obtain ⟨t', ht'⟩ := exec_answers_next (.sta a) (State.reset.setAc 1)
  refine ⟨State.reset, 1, t, t', ht, ht', fun h => ?_⟩
  have hread : (t'.setAc t.ac).memRead a = t.memRead a := by rw [h]
  rw [memRead_setAc, exec_sta_memRead (s := State.reset.setAc 1) State.reset_mem_wf ht',
    exec_sta_memRead State.reset_mem_wf ht] at hread
  exact absurd hread (by decide)

/-- A conditional jump whose condition fails at AC = 5 and holds at AC = `v` reads AC. -/
theorem jumpIf_dependsOn_ac {a v : Byte} {i : Instr} {cond : Byte → Bool}
    (hi : ∀ s, exec i s = .next (s.jumpIf (cond s.ac) a)) (hstay : cond 5 = false) (hjump : cond v = true) :
    ∃ (s : State) (v : Byte) (t t' : State), exec i s = .next t ∧
      exec i (s.setAc v) = .next t' ∧ t'.setAc t.ac ≠ t := by
  have ht : exec i (acProbe a) = .next ((acProbe a).advance 2) := by
    rw [hi, acProbe_ac, hstay, jumpIf_false]
  have ht' : exec i ((acProbe a).setAc v) = .next (((acProbe a).setAc v).setPc a) := by
    rw [hi, State.setAc_ac, hjump, jumpIf_true]
  refine ⟨acProbe a, v, _, _, ht, ht', fun h => ?_⟩
  have hpc : a = addrAdd a 2 := congrArg State.pc h
  exact addrAdd_two_ne a hpc.symm

/-- NOP, JMP and HLT carry any AC through (R21). -/
theorem exec_setAc_of_ac_unused {a : Byte} {i : Instr} {s t : State} (hi : i = .nop ∨ i = .jmp a ∨ i = .hlt)
    (h : exec i s = .next t) (v : Byte) : exec i (s.setAc v) = .next (t.setAc v) := by
  rcases hi with rfl | rfl | rfl <;> cases h <;> rfl

/-- Settles O20: `exec_ac` gives the clauses about writing AC, and `acProbe` (reset for STA) shows each dependence. -/
theorem whichInstructionsTouchAc : Obligations.WhichInstructionsTouchAc := by
  refine ⟨fun i s t h hi => ?_, fun a s t h hz => ?_, fun a m hm => exists_exec_ac_ne a hm, fun a v s => rfl,
    fun a v i s t hi h => exec_setAc_of_ac_unused hi h v, fun a m hm => ?_,
    fun a m hm => exists_exec_ac_dependsOn_ac a hm⟩
  · obtain ⟨a, ha⟩ := exists_eq_instrOf i
    rw [ha] at h
    rw [exec_ac h, acResult_of_not_writer hi]
  · rw [exec_ac (m := .div) h, hz]
    rfl
  · fin_cases hm
    · exact sta_dependsOn_ac a
    · exact jumpIf_dependsOn_ac (v := 0x80) (cond := negative) (fun _ => rfl) (by decide) (by decide)
    · exact jumpIf_dependsOn_ac (v := 0) (cond := zero) (fun _ => rfl) (by decide) (by decide)

/-! ## The bits above bit 7 -/

/-- Sums that agree mod 256 give the same byte. -/
theorem aluAdd_congr {x y x' y' : Byte} (h : (x.toNat + y.toNat) % 256 = (x'.toNat + y'.toNat) % 256) :
    aluAdd x' y' = aluAdd x y := by
  apply BitVec.eq_of_toNat_eq
  rw [aluAdd_toNat, aluAdd_toNat, h]

/-- Differences that agree mod 256 give the same byte. -/
theorem aluSub_congr {x y x' y' : Byte}
    (h : ((x.toNat : Int) - y.toNat) % 256 = ((x'.toNat : Int) - y'.toNat) % 256) : aluSub x' y' = aluSub x y := by
  apply BitVec.eq_of_toNat_eq
  simp only [aluSub, BitVec.toNat_ofInt]
  exact congrArg Int.toNat h.symm

/-- Products that agree mod 256 give the same byte. -/
theorem aluMul_congr {x y x' y' : Byte} (h : (x.toNat * y.toNat) % 256 = (x'.toNat * y'.toNat) % 256) :
    aluMul x' y' = aluMul x y := by
  apply BitVec.eq_of_toNat_eq
  rw [aluMul_toNat, aluMul_toNat, h]

/-- The result byte is all that the ALU shape keeps of a result: nothing else outside memory depends on the operands. -/
theorem accumulate_agree {s s' : State} {f : Byte → Byte → Byte} {a : Byte} (hpc : s'.pc = s.pc)
    (hb : SameBookkeeping s s') (hf : f s'.ac (s'.memRead a) = f s.ac (s.memRead a)) :
    (s'.accumulate f a).ac = (s.accumulate f a).ac ∧ (s'.accumulate f a).pc = (s.accumulate f a).pc ∧
      SameBookkeeping (s.accumulate f a) (s'.accumulate f a) :=
  ⟨hf, by simp [hpc], accumulate_sameBookkeeping hb f a⟩

/-- Settles O21: results that agree mod 256 are the same byte, and the byte is all that is kept. -/
theorem noRecordOfDiscardedBits : Obligations.NoRecordOfDiscardedBits := fun _ _ _ hpc hb =>
  ⟨fun h => ⟨_, _, rfl, rfl, accumulate_agree hpc hb (aluAdd_congr h)⟩,
    fun h => ⟨_, _, rfl, rfl, accumulate_agree hpc hb (aluSub_congr h)⟩,
    fun h => ⟨_, _, rfl, rfl, accumulate_agree hpc hb (aluMul_congr h)⟩⟩

end Sys2Proof.Machine

/-! PROOFS. The memory of 20_memory.md: no access fails, and a step makes the accesses of the table. -/

namespace Sys2Proof.Machine

/-! ## The conditions a step can raise -/

/-- A meaning reports nothing, but for a DIV by zero. -/
theorem exec_ev_cases {i : Instr} {s t : State} (h : exec i s = .next t) :
    t.ev = s.ev ∨ ∃ a, i = .div a ∧ s.memRead a = 0#8 ∧ t.ev = s.ev ++ [.divisionByZero s.pc] := by
  cases i
  case div a =>
    by_cases hz : s.memRead a = 0#8
    · rw [exec, execDiv_of_zero hz] at h
      cases h
      exact .inr ⟨a, rfl, hz, by simp⟩
    · rw [exec, execDiv_of_ne_zero hz] at h
      cases h
      exact .inl rfl
  case jn a => cases h; exact .inl (jumpIf_ev s s.flagN a)
  case jz a => cases h; exact .inl (jumpIf_ev s s.flagZ a)
  all_goals cases h; exact .inl rfl

/-- A running core always takes a step. -/
theorem step_answers_next {s : State} (hr : s.rs = .running) : ∃ t, step s = .next t := by
  cases hb : s.boundReached with
  | true => exact ⟨_, step_at_bound hr hb⟩
  | false =>
    cases hm : decodeOpcode s.params.opcodeMap (s.memRead s.pc) with
    | none => exact ⟨_, step_at_unknown hr hb hm⟩
    | some m => rw [step_at_opcode hr hb hm]; exact exec_answers_next _ _

/-- Settles O18: of the three things a step can do, the bound reports nothing, an unknown byte reports itself, and an
instruction reports only as a DIV by zero (`exec_ev_cases`). -/
theorem noOtherConditionIsRaised : Obligations.NoOtherConditionIsRaised := by
  intro s hr
  obtain ⟨t, ht⟩ := step_answers_next hr
  refine ⟨t, ht, ?_⟩
  obtain ⟨-, ⟨-, rfl⟩ | ⟨-, m, hm, hexec⟩ | ⟨-, hm, rfl⟩⟩ := step_cases ht
  · exact .inl rfl
  · rcases exec_ev_cases hexec with hev | ⟨a, hdiv, hz, hev⟩
    · exact .inl hev
    · obtain rfl : m = .div := (instrOf_mnemonic m _).symm.trans (congrArg Instr.mnemonic hdiv)
      obtain rfl : s.memRead (operandAddr s.pc) = a := Instr.div.inj hdiv
      exact .inr (.inl ⟨hev, hm, hz⟩)
  · exact .inr (.inr ⟨State.raise_ev s.countStep _, hm⟩)

/-! ## An instruction's bytes in memory -/

/-- An instruction has an operand byte exactly in format F1. -/
theorem formatOf_mnemonic (i : Instr) : formatOf i.mnemonic = if i.operand.isSome then .f1 else .f0 := by
  cases i <;> rfl

/-- The first byte of an instruction's encoding is its opcode byte. -/
theorem memRead_of_holdsAt_encode {map : OpcodeMap} {s : State} {i : Instr} {a : Byte}
    (h : s.holdsAt a (encode map i)) : s.memRead a = map.byteOf i.mnemonic := by
  simpa using h 0 _ rfl

/-- The byte after the opcode byte is the operand byte, if there is one. -/
theorem memRead_operandAddr_of_holdsAt_encode {map : OpcodeMap} {s : State} {i : Instr} {pc a : Byte}
    (h : s.holdsAt pc (encode map i)) (ha : i.operand = some a) : s.memRead (operandAddr pc) = a :=
  h 1 a (by simp [encode, ha])

/-- The opcode byte of an unambiguous instruction decodes to its mnemonic. -/
theorem decodeOpcode_of_holdsAt_encode {s : State} {i : Instr} (hwf : i.wf s.params.opcodeMap)
    (h : s.holdsAt s.pc (encode s.params.opcodeMap i)) :
    decodeOpcode s.params.opcodeMap (s.memRead s.pc) = some i.mnemonic := by
  rw [memRead_of_holdsAt_encode h, decodeOpcode_byteOf hwf]

/-! ## The accesses of a step -/

/-- A step that is not stopped before its fetch makes its instruction's accesses. -/
theorem stepAccesses_of_fetch {s : State} (hr : s.rs = .running) (hb : s.boundReached = false) :
    stepAccesses s = instrAccesses s := if_pos ⟨hr, hb⟩

theorem instrAccesses_of_unknown {s : State} (h : decodeOpcode s.params.opcodeMap (s.memRead s.pc) = none) :
    instrAccesses s = [s.readAccess .opcodeFetch s.pc] := by
  simp [instrAccesses, h]

theorem instrAccesses_of_f0 {s : State} {m : Mnemonic}
    (h : decodeOpcode s.params.opcodeMap (s.memRead s.pc) = some m) (hf : formatOf m = .f0) :
    instrAccesses s = [s.readAccess .opcodeFetch s.pc] := by
  simp [instrAccesses, h, hf]

theorem instrAccesses_of_f1 {s : State} {m : Mnemonic}
    (h : decodeOpcode s.params.opcodeMap (s.memRead s.pc) = some m) (hf : formatOf m = .f1) :
    instrAccesses s = [s.readAccess .opcodeFetch s.pc, s.readAccess .operandFetch (operandAddr s.pc)] ++
      dataAccess s (s.memRead (operandAddr s.pc)) m := by
  simp [instrAccesses, h, hf]

/-- The data access of an instruction: that of its mnemonic at its operand byte, and none where there is no operand. -/
def instrDataAccess (s : State) (i : Instr) : List Access :=
  i.operand.toList.flatMap (fun a => dataAccess s a i.mnemonic)

/-- The accesses at an unambiguous instruction's bytes: opcode fetch, operand fetch if it has an operand, data access. -/
theorem instrAccesses_of_holdsAt_encode {s : State} {i : Instr} (hwf : i.wf s.params.opcodeMap)
    (h : s.holdsAt s.pc (encode s.params.opcodeMap i)) :
    instrAccesses s = s.readAccess .opcodeFetch s.pc ::
      (i.operand.toList.map (fun a => ⟨.operandFetch, operandAddr s.pc, a⟩) ++ instrDataAccess s i) := by
  have hm := decodeOpcode_of_holdsAt_encode hwf h
  cases ho : i.operand with
  | none =>
    have hf : formatOf i.mnemonic = .f0 := by simp [formatOf_mnemonic, ho]
    simp [instrAccesses_of_f0 hm hf, instrDataAccess, ho]
  | some a =>
    have hf : formatOf i.mnemonic = .f1 := by simp [formatOf_mnemonic, ho]
    have ha := memRead_operandAddr_of_holdsAt_encode h ho
    simp [instrAccesses_of_f1 hm hf, instrDataAccess, ho, ha, State.readAccess]

/-- Settles O25: the fetches are those of `instrAccesses_of_holdsAt_encode`, and the data access is read off for each
instruction. -/
theorem stepMakesTheAccessesOfTheTable : Obligations.StepMakesTheAccessesOfTheTable := by
  intro s hr hb
  rw [stepAccesses_of_fetch hr hb]
  refine ⟨instrAccesses_of_unknown, fun i hwf h =>
    ⟨instrDataAccess s i, instrAccesses_of_holdsAt_encode hwf h, ?sta, ?read, ?none⟩⟩
  case sta => rintro a rfl; rfl
  case read => rintro a (rfl | rfl | rfl | rfl | rfl | rfl | rfl) <;> rfl
  case none => rintro a (rfl | rfl | rfl | rfl | rfl | rfl) <;> rfl

end Sys2Proof.Machine

/-! PROOFS. The encoding of 30_encoding.md: the two formats, and the assembler's image and its load. -/

namespace Sys2Proof.Machine

/-! ## The formats -/

/-- Settles O31: `encode` computes on each instruction to its opcode byte and its operand's. -/
theorem formatsAreOneAndTwoBytes : Obligations.FormatsAreOneAndTwoBytes := fun _ =>
  ⟨rfl, rfl, rfl, fun _ => ⟨rfl, rfl, rfl, rfl, rfl, rfl, rfl, rfl, rfl, rfl, rfl⟩⟩

/-! ## Loading an image -/

/-- A load succeeds exactly on a long enough image, and gives the reset state with its payload as memory and the parameters
`p` (70_reset_and_hazards.md R161, R162). -/
theorem load_eq_ok {p : Params} {image : List Byte} {s : State} :
    load p image = .ok s ↔ imageSize ≤ image.length ∧
      s = { State.reset with mem := memoryFrom 0 (payload image), params := p } := by
  unfold load
  split
  · next hshort => simp [Nat.not_le.2 hshort]
  · next hlong =>
    rw [Except.ok.injEq, and_iff_right (Nat.not_lt.1 hlong)]
    exact eq_comm

/-- A loaded memory reads the 256 bytes after the image's header (70_reset_and_hazards.md R162). -/
theorem memRead_of_load {p : Params} {image : List Byte} {s : State} (h : load p image = .ok s) (a : Byte) :
    (image.drop headerSize)[a.toNat]? = some (s.memRead a) := by
  obtain ⟨hlong, rfl⟩ := load_eq_ok.1 h
  have ha : a.toNat < memSize := a.isLt
  have hlen : a.toNat < (image.drop headerSize).length := by
    rw [List.length_drop]
    unfold imageSize at hlong
    omega
  have hread := memoryFrom_read 0 (payload image) a.toNat
  rw [Nat.zero_add] at hread
  rw [State.memRead, hread, payload, List.getD_eq_getElem?_getD, List.getElem?_take_of_lt ha,
    List.getElem?_eq_getElem hlen, Option.getD_some]

/-! ## The assembler's image -/

@[simp] theorem length_writeBytes (mem : List Byte) (a : Nat) (bs : List Byte) :
    (writeBytes mem a bs).length = mem.length := by
  induction bs generalizing mem a with
  | nil => rfl
  | cons b bs ih => simp [writeBytes, ih]

@[simp] theorem length_emitData (mem : List Byte) (ds : List DataSymbol) : (emitData mem ds).length = mem.length := by
  induction ds generalizing mem with
  | nil => rfl
  | cons d ds ih => simp [emitData, ih]

/-- Writing the code changes no length. -/
theorem length_of_emitCode {map : OpcodeMap} {L : Layout} {mem mem' : List Byte} {ps : List PlacedInstr}
    (h : emitCode map L mem ps = .ok mem') : mem'.length = mem.length := by
  induction ps generalizing mem with
  | nil => cases h; rfl
  | cons p ps ih =>
    cases hr : resolveInstr L p with
    | error e => simp [emitCode, hr] at h
    | ok i =>
      rw [emitCode, hr] at h
      exact (ih h).trans (length_writeBytes ..)

/-- An assembled image is what a layout of its text emits. -/
theorem exists_layout_of_assemble {map : OpcodeMap} {text : List Char} {image : List Byte}
    (h : assemble map text = .ok image) : ∃ L, layout text = .ok L ∧ emit map L = .ok image := by
  cases hL : layout text with
  | error e => simp [assemble, hL] at h
  | ok L => exact ⟨L, rfl, by simpa [assemble, hL] using h⟩

/-- An emitted image is the header, then the memory with the data and the code written (30_encoding.md R88). -/
theorem exists_emitCode_of_emit {map : OpcodeMap} {L : Layout} {image : List Byte} (h : emit map L = .ok image) :
    ∃ mem, emitCode map L (emitData (List.replicate memSize 0x00) L.data) L.code = .ok mem ∧
      image = imageHeader ++ mem := by
  cases hc : emitCode map L (emitData (List.replicate memSize 0x00) L.data) L.code with
  | error e => rw [emit, hc] at h; cases h
  | ok mem => rw [emit, hc] at h; cases h; exact ⟨mem, rfl, rfl⟩

/-- The shape of an assembled image: the header and 256 bytes. -/
theorem exists_memory_of_assemble {map : OpcodeMap} {text : List Char} {image : List Byte}
    (h : assemble map text = .ok image) : ∃ mem, mem.length = memSize ∧ image = imageHeader ++ mem := by
  obtain ⟨L, -, hemit⟩ := exists_layout_of_assemble h
  obtain ⟨mem, hcode, rfl⟩ := exists_emitCode_of_emit hemit
  exact ⟨mem, by simpa using length_of_emitCode hcode, rfl⟩

/-- Settles O48: the image is the header and 256 bytes, so it is long enough to load, and a load takes what follows the
header as memory. -/
theorem assembledImageLoads : Obligations.AssembledImageLoads := by
  intro map text image h
  obtain ⟨mem, hmem, rfl⟩ := exists_memory_of_assemble h
  have hsize : (imageHeader ++ mem).length = imageSize := by
    rw [List.length_append, hmem]
    rfl
  refine ⟨hsize, rfl, fun p => ?_⟩
  have hload := (load_eq_ok (p := p)).2 ⟨hsize.ge, rfl⟩
  exact ⟨_, hload, memRead_of_load hload⟩

end Sys2Proof.Machine

/-! PROOFS. NOP and data transfer of 40_nop_and_transfer.md. -/

namespace Sys2Proof.Machine

/-! ## The frames, update by update -/

theorem OnlyAcPc.refl (s : State) : OnlyAcPc s s := ⟨fun _ => rfl, rfl, rfl, rfl, rfl⟩

theorem OnlyAcPc.setAc {s t : State} (h : OnlyAcPc s t) (v : Byte) : OnlyAcPc s (t.setAc v) := h

theorem OnlyAcPc.advance {s t : State} (h : OnlyAcPc s t) (n : Nat) : OnlyAcPc s (t.advance n) := h

theorem SameBookkeeping.refl (s : State) : SameBookkeeping s s := ⟨rfl, rfl, rfl, rfl⟩

theorem SameBookkeeping.memWrite {s t : State} (h : SameBookkeeping s t) (a v : Byte) :
    SameBookkeeping s (t.memWrite a v) := h

theorem SameBookkeeping.advance {s t : State} (h : SameBookkeeping s t) (n : Nat) :
    SameBookkeeping s (t.advance n) := h

/-! ## The instructions -/

/-- NOP, whole. -/
theorem exec_nop (s : State) : exec .nop s = .next (s.advance 1) := rfl

/-- LDA, whole. -/
theorem exec_lda (a : Byte) (s : State) : exec (.lda a) s = .next ((s.setAc (s.memRead a)).advance 2) := rfl

/-- STA, whole. -/
theorem exec_sta (a : Byte) (s : State) : exec (.sta a) s = .next ((s.memWrite a s.ac).advance 2) := rfl

/-- STA leaves every byte but the one at its address. -/
theorem exec_sta_memRead_of_ne {a b : Byte} {s t : State} (hw : Memory.wf s.mem) (h : exec (.sta a) s = .next t)
    (hb : a ≠ b) : t.memRead b = s.memRead b := by
  rw [exec_sta] at h
  cases h
  rw [memRead_advance, State.memRead_memWrite hw, if_neg hb]

/-- Settles O1: NOP is `advance 1`, which sets PC alone. -/
theorem nopAdvancesPcByOne : Obligations.NopAdvancesPcByOne :=
  ⟨rfl, fun s => ⟨_, exec_nop s, addrAdd_toNat s.pc 1, rfl, (OnlyAcPc.refl s).advance 1⟩⟩

/-- Settles O2: LDA is `setAc` of the byte read, then `advance 2`; neither touches more than AC and PC. -/
theorem ldaLoadsMemoryIntoAc : Obligations.LdaLoadsMemoryIntoAc :=
  ⟨fun _ => rfl, fun a s => ⟨_, exec_lda a s, rfl, addrAdd_toNat s.pc 2,
    ((OnlyAcPc.refl s).setAc (s.memRead a)).advance 2⟩⟩

/-- Settles O3: STA is `memWrite` of AC, then `advance 2`; in a canonical memory the write changes the one byte. -/
theorem staStoresAcAndNothingElse : Obligations.StaStoresAcAndNothingElse := by
  refine ⟨fun _ => rfl, fun a s => ⟨_, exec_sta a s, rfl, addrAdd_toNat s.pc 2,
    ((SameBookkeeping.refl s).memWrite a s.ac).advance 2, fun hw => ⟨?stored, ?others⟩⟩⟩
  case stored => exact exec_sta_memRead hw (exec_sta a s)
  case others => exact fun b hb => exec_sta_memRead_of_ne hw (exec_sta a s) hb

end Sys2Proof.Machine

/-! PROOFS. The ALU instructions of 41_alu.md. -/

namespace Sys2Proof.Machine

/-! ## The shape's frame, and results read as the statements read them -/

/-- The two-operand ALU shape advances PC by 2 and changes only AC besides, whatever the operation (R108). -/
theorem accumulate_frame (s : State) (f : Byte → Byte → Byte) (a : Byte) :
    (s.accumulate f a).pc.toNat = (s.pc.toNat + 2) % 256 ∧ OnlyAcPc s (s.accumulate f a) :=
  ⟨addrAdd_toNat s.pc 2, ((OnlyAcPc.refl s).setAc (f s.ac (s.memRead a))).advance 2⟩

/-- The difference as a number: the non-negative residue of the exact one (R112). -/
theorem aluSub_toNat (x y : Byte) : ((aluSub x y).toNat : Int) = ((x.toNat : Int) - y.toNat) % 256 := by
  have hnonneg : 0 ≤ ((x.toNat : Int) - y.toNat) % 256 := Int.emod_nonneg _ (by decide)
  rw [aluSub, BitVec.toNat_ofInt]
  exact Int.toNat_of_nonneg hnonneg

/-- OR, bit by bit (R118). -/
theorem aluOr_getLsbD (x y : Byte) (k : Nat) : (aluOr x y).getLsbD k = (x.getLsbD k || y.getLsbD k) :=
  BitVec.getLsbD_or

/-- AND, bit by bit (R120). -/
theorem aluAnd_getLsbD (x y : Byte) (k : Nat) : (aluAnd x y).getLsbD k = (x.getLsbD k && y.getLsbD k) :=
  BitVec.getLsbD_and

/-! ## The instructions -/

/-- ADD, whole. -/
theorem exec_add (a : Byte) (s : State) : exec (.add a) s = .next (s.accumulate aluAdd a) := rfl

/-- SUB, whole. -/
theorem exec_sub (a : Byte) (s : State) : exec (.sub a) s = .next (s.accumulate aluSub a) := rfl

/-- MUL, whole. -/
theorem exec_mul (a : Byte) (s : State) : exec (.mul a) s = .next (s.accumulate aluMul a) := rfl

/-- OR, whole. -/
theorem exec_or (a : Byte) (s : State) : exec (.or a) s = .next (s.accumulate aluOr a) := rfl

/-- AND, whole. -/
theorem exec_and (a : Byte) (s : State) : exec (.and a) s = .next (s.accumulate aluAnd a) := rfl

/-- DIV with a zero divisor: the report, then the advance (R116). -/
theorem exec_div_of_zero {s : State} {a : Byte} (h : s.memRead a = 0#8) :
    exec (.div a) s = .next ((s.raise (.divisionByZero s.pc)).advance 2) := execDiv_of_zero h

/-- DIV with any other divisor has the shape of the other ALU instructions (R116). -/
theorem exec_div_of_ne_zero {s : State} {a : Byte} (h : s.memRead a ≠ 0#8) :
    exec (.div a) s = .next (s.accumulate aluDiv a) := execDiv_of_ne_zero h

/-- Settles O4: `accumulate` with `aluAdd`, the sum mod 256. -/
theorem addWrapsMod256 : Obligations.AddWrapsMod256 :=
  ⟨fun _ => rfl, fun a s => ⟨_, exec_add a s, aluAdd_toNat s.ac (s.memRead a), accumulate_frame s aluAdd a⟩⟩

/-- Settles O5: `accumulate` with `aluSub`, the difference AC minus memory mod 256. -/
theorem subWrapsMod256 : Obligations.SubWrapsMod256 :=
  ⟨fun _ => rfl, fun a s => ⟨_, exec_sub a s, aluSub_toNat s.ac (s.memRead a), accumulate_frame s aluSub a⟩⟩

/-- Settles O6: `accumulate` with `aluMul`, the product mod 256. -/
theorem mulWrapsMod256 : Obligations.MulWrapsMod256 :=
  ⟨fun _ => rfl, fun a s => ⟨_, exec_mul a s, aluMul_toNat s.ac (s.memRead a), accumulate_frame s aluMul a⟩⟩

/-- Settles O7, by whether the divisor is zero: the report and AC as it was, or `accumulate` with `aluDiv`. -/
theorem divQuotientOrReport : Obligations.DivQuotientOrReport := by
  refine ⟨fun _ => rfl, fun a s => ?_⟩
  by_cases hz : s.memRead a = 0#8
  case pos =>
    exact ⟨_, exec_div_of_zero hz, addrAdd_toNat s.pc 2, fun _ => rfl, rfl, rfl, rfl,
      fun hnz => absurd hz hnz, fun _ => ⟨rfl, rfl⟩⟩
  case neg =>
    obtain ⟨hpc, hmem, hrs, hev, hnstep, hparams⟩ := accumulate_frame s aluDiv a
    exact ⟨_, exec_div_of_ne_zero hz, hpc, hmem, hrs, hnstep, hparams,
      fun _ => ⟨aluDiv_toNat s.ac (s.memRead a), hev⟩, fun h => absurd h hz⟩

/-- Settles O8: `accumulate` with `aluOr`, the OR of each bit. -/
theorem orIsBitwise : Obligations.OrIsBitwise :=
  ⟨fun _ => rfl, fun a s => ⟨_, exec_or a s, aluOr_getLsbD s.ac (s.memRead a), accumulate_frame s aluOr a⟩⟩

/-- Settles O9: `accumulate` with `aluAnd`, the AND of each bit. -/
theorem andIsBitwise : Obligations.AndIsBitwise :=
  ⟨fun _ => rfl, fun a s => ⟨_, exec_and a s, aluAnd_getLsbD s.ac (s.memRead a), accumulate_frame s aluAnd a⟩⟩

end Sys2Proof.Machine

/-! PROOFS. Control transfer of 42_control.md. -/

namespace Sys2Proof.Machine

/-! ## The jumps' conditions, and their frame -/

/-- Bit 7 is set exactly from 128 on (R132). -/
theorem getLsbD_seven_iff (x : Byte) : x.getLsbD 7 = true ↔ 128 ≤ x.toNat := by
  rw [← BitVec.msb_eq_getLsbD_last, BitVec.msb_eq_decide, decide_eq_true_iff]

/-- N is bit 7 (10_state.md R25). -/
theorem negative_eq_getLsbD (x : Byte) : negative x = x.getLsbD 7 := BitVec.msb_eq_getLsbD_last x

theorem flagN_eq_true_iff (s : State) : s.flagN = true ↔ 128 ≤ s.ac.toNat := by
  rw [State.flagN, negative_eq_getLsbD, getLsbD_seven_iff]

theorem flagZ_eq_true_iff (s : State) : s.flagZ = true ↔ s.ac = 0#8 := beq_iff_eq

theorem OnlyAcPc.setPc {s t : State} (h : OnlyAcPc s t) (target : Byte) : OnlyAcPc s (t.setPc target) := h

/-- A conditional jump sets PC alone, taken or not. -/
theorem OnlyAcPc.jumpIf {s t : State} (h : OnlyAcPc s t) (taken : Bool) (a : Byte) :
    OnlyAcPc s (t.jumpIf taken a) := by
  cases taken
  case true => exact h.setPc a
  case false => exact h.advance 2

theorem jumpIf_pc_of_taken {taken : Bool} (h : taken = true) (s : State) (a : Byte) :
    (s.jumpIf taken a).pc = a := by
  rw [h, jumpIf_true, State.setPc_pc]

theorem jumpIf_pc_of_not_taken {taken : Bool} (h : ¬ taken = true) (s : State) (a : Byte) :
    (s.jumpIf taken a).pc.toNat = (s.pc.toNat + 2) % 256 := by
  rw [Bool.eq_false_of_not_eq_true h, jumpIf_false]
  exact addrAdd_toNat s.pc 2

/-! ## The instructions -/

/-- JMP, whole. -/
theorem exec_jmp (a : Byte) (s : State) : exec (.jmp a) s = .next (s.setPc a) := rfl

/-- JN, whole. -/
theorem exec_jn (a : Byte) (s : State) : exec (.jn a) s = .next (s.jumpIf s.flagN a) := rfl

/-- JZ, whole. -/
theorem exec_jz (a : Byte) (s : State) : exec (.jz a) s = .next (s.jumpIf s.flagZ a) := rfl

/-- HLT, whole. -/
theorem exec_hlt (s : State) : exec .hlt s = .next (s.stop .halted) := rfl

/-- Settles O11: JMP is `setPc`, which sets PC alone. -/
theorem jmpSetsPc : Obligations.JmpSetsPc :=
  ⟨fun _ => rfl, fun a s => ⟨_, exec_jmp a s, State.setPc_pc s a, State.setPc_ac s a, (OnlyAcPc.refl s).setPc a⟩⟩

/-- Settles O12: JN is `jumpIf` on N, and N holds exactly where AC is at least 128. -/
theorem jnJumpsIffBit7 : Obligations.JnJumpsIffBit7 := by
  refine ⟨fun _ => rfl, fun a s => ⟨_, exec_jn a s, jumpIf_ac s s.flagN a, (OnlyAcPc.refl s).jumpIf s.flagN a,
    getLsbD_seven_iff s.ac, fun hge => ?taken, fun hlt => ?fallsThrough⟩⟩
  case taken => exact jumpIf_pc_of_taken ((flagN_eq_true_iff s).2 hge) s a
  case fallsThrough => exact jumpIf_pc_of_not_taken (mt (flagN_eq_true_iff s).1 (Nat.not_le.2 hlt)) s a

/-- Settles O13: JZ is `jumpIf` on Z, and Z holds exactly where AC is 0. -/
theorem jzJumpsIffZero : Obligations.JzJumpsIffZero := by
  refine ⟨fun _ => rfl, fun a s => ⟨_, exec_jz a s, jumpIf_ac s s.flagZ a, (OnlyAcPc.refl s).jumpIf s.flagZ a,
    fun hz => ?taken, fun hnz => ?fallsThrough⟩⟩
  case taken => exact jumpIf_pc_of_taken ((flagZ_eq_true_iff s).2 hz) s a
  case fallsThrough => exact jumpIf_pc_of_not_taken (mt (flagZ_eq_true_iff s).1 hnz) s a

/-- Settles O14: HLT is `stop`, which sets RS alone, and its opcode has format F0, so the step that runs it fetches no
operand byte. -/
theorem hltStopsInPlace : Obligations.HltStopsInPlace :=
  ⟨rfl, fun s => ⟨_, exec_hlt s, State.stop_rs s .halted, rfl, rfl, memRead_stop s .halted, rfl, rfl, rfl⟩,
    fun _ hr hb hm => (stepAccesses_of_fetch hr hb).trans (instrAccesses_of_f0 hm rfl)⟩

end Sys2Proof.Machine

/-! PROOFS. Reset of 70_reset_and_hazards.md: where a loaded core fetches first. -/

namespace Sys2Proof.Machine

/-- A state that has counted no step is at its bound only where the bound is 0 (60_exceptions.md R148). -/
theorem boundReached_eq_false_of_nstep_eq_zero {s : State} (hn : s.nstep = 0) (hk : s.params.maxSteps ≠ some 0) :
    s.boundReached = false := by
  unfold State.boundReached
  split
  case h_1 => rfl
  case h_2 k hmax =>
    have hpos : k ≠ 0 := fun h => hk (hmax.trans (congrArg some h))
    simp [hn, hpos]

/-- A step that is not stopped before its fetch begins with the opcode fetch at PC (20_memory.md R41). -/
theorem exists_stepAccesses_eq_cons {s : State} (hr : s.rs = .running) (hb : s.boundReached = false) :
    ∃ more, stepAccesses s = s.readAccess .opcodeFetch s.pc :: more :=
  ⟨_, stepAccesses_of_fetch hr hb⟩

/-- A load leaves the core RUNNING at address 0x00 with no step counted, under the given parameters
(70_reset_and_hazards.md R162). -/
theorem entry_of_load {p : Params} {image : List Byte} {s : State} (h : load p image = .ok s) :
    s.rs = .running ∧ s.pc = 0x00 ∧ s.nstep = 0 ∧ s.params = p := by
  obtain ⟨-, rfl⟩ := load_eq_ok.1 h
  exact ⟨rfl, rfl, rfl, rfl⟩

/-- Settles O40: a loaded core is RUNNING at PC = 0x00 and not at its bound, so it fetches M[0x00], and the loaded memory
reads the image from byte 4 on. -/
theorem firstStepFetchesAddressZero : Obligations.FirstStepFetchesAddressZero := by
  intro p image s h hk
  obtain ⟨hr, hpc, hn, hp⟩ := entry_of_load h
  have hb : s.boundReached = false := boundReached_eq_false_of_nstep_eq_zero hn (by rwa [hp])
  have hbyte : image[4]? = some (s.memRead 0x00) := by simpa [headerSize] using memRead_of_load h 0x00
  obtain ⟨more, hmore⟩ := exists_stepAccesses_eq_cons hr hb
  rw [hpc] at hmore
  exact ⟨s.memRead 0x00, more, hbyte, hmore⟩

end Sys2Proof.Machine

/-! PROOFS. The decoder of 30_encoding.md: encoding and decoding undo each other. -/

namespace Sys2Proof.Machine

/-! ## The decoder and the encoder, format by format -/

theorem decode_f0 {map : OpcodeMap} {op : Byte} {m : Mnemonic} (hm : decodeOpcode map op = some m)
    (hf : formatOf m = .f0) (rest : List Byte) : decode map (op :: rest) = .ok (instrOf m 0, rest) := by
  simp [decode, hm, hf]

theorem decode_f1 {map : OpcodeMap} {op : Byte} {m : Mnemonic} (hm : decodeOpcode map op = some m)
    (hf : formatOf m = .f1) (a : Byte) (rest : List Byte) :
    decode map (op :: a :: rest) = .ok (instrOf m a, rest) := by
  simp [decode, hm, hf]

/-- The two ways bytes decode, one for each format (R60, R61). -/
theorem decode_eq_ok_cases {map : OpcodeMap} {bytes rest : List Byte} {i : Instr}
    (h : decode map bytes = .ok (i, rest)) :
    ∃ op m, decodeOpcode map op = some m ∧
      ((formatOf m = .f0 ∧ bytes = op :: rest ∧ i = instrOf m 0) ∨
       (formatOf m = .f1 ∧ ∃ a, bytes = op :: a :: rest ∧ i = instrOf m a)) := by
  cases bytes with
  | nil => cases h
  | cons op bytes =>
    cases hm : decodeOpcode map op with
    | none => simp [decode, hm] at h
    | some m =>
      refine ⟨op, m, hm, ?_⟩
      cases hf : formatOf m with
      | f0 =>
        rw [decode_f0 hm hf] at h
        cases h
        exact .inl ⟨rfl, rfl, rfl⟩
      | f1 =>
        cases bytes with
        | nil => simp [decode, hm, hf] at h
        | cons a bytes =>
          rw [decode_f1 hm hf] at h
          cases h
          exact .inr ⟨rfl, a, rfl, rfl⟩

/-- An F0 mnemonic's instruction has no operand byte. -/
theorem instrOf_operand_f0 {m : Mnemonic} (hf : formatOf m = .f0) (a : Byte) : (instrOf m a).operand = none := by
  cases m
  case nop | not | hlt => rfl
  all_goals cases hf

/-- An F1 mnemonic's instruction has the operand byte it was made with. -/
theorem instrOf_operand_f1 {m : Mnemonic} (hf : formatOf m = .f1) (a : Byte) : (instrOf m a).operand = some a := by
  cases m
  case nop | not | hlt => cases hf
  all_goals rfl

/-- An instruction is made from its mnemonic and its operand byte; without one, any byte will do. -/
theorem instrOf_of_operand {i : Instr} {a : Byte} (h : ∀ b, i.operand = some b → b = a) :
    instrOf i.mnemonic a = i := by
  obtain ⟨b, hb⟩ := exists_eq_instrOf i
  generalize i.mnemonic = m at hb ⊢
  subst hb
  cases hf : formatOf m with
  | f0 => exact instrOf_f0 hf a b
  | f1 => rw [h b (instrOf_operand_f1 hf b)]

/-- Decoding an unambiguous instruction's encoding gives it back, and leaves what follows. -/
theorem decode_encode {map : OpcodeMap} {i : Instr} (hwf : i.wf map) (rest : List Byte) :
    decode map (encode map i ++ rest) = .ok (i, rest) := by
  have hm : decodeOpcode map (map.byteOf i.mnemonic) = some i.mnemonic := decodeOpcode_byteOf hwf
  cases ho : i.operand with
  | none =>
    have hf : formatOf i.mnemonic = .f0 := by simp [formatOf_mnemonic, ho]
    have hi : instrOf i.mnemonic 0 = i := instrOf_of_operand (by simp [ho])
    rw [encode, ho, ← hi, instrOf_mnemonic]
    exact decode_f0 hm hf rest
  | some a =>
    have hf : formatOf i.mnemonic = .f1 := by simp [formatOf_mnemonic, ho]
    have hi : instrOf i.mnemonic a = i := instrOf_of_operand (by simp [ho])
    rw [encode, ho, ← hi, instrOf_mnemonic]
    exact decode_f1 hm hf a rest

/-- Settles O34: `decode_encode`; an injective map makes every instruction unambiguous. -/
theorem decodeEncodeRoundTrip : Obligations.DecodeEncodeRoundTrip := fun _ i =>
  ⟨decode_encode, fun hmap => decode_encode (Instr.wf_of_map_wf hmap i)⟩

/-- Settles O35: in both formats the opcode byte is the map's byte of the mnemonic, and the operand byte is kept. -/
theorem decodedBytesAreTheEncoding : Obligations.DecodedBytesAreTheEncoding := by
  intro map bytes i rest h
  obtain ⟨op, m, hm, ⟨hf, rfl, rfl⟩ | ⟨hf, a, rfl, rfl⟩⟩ := decode_eq_ok_cases h
  · simp [encode, instrOf_operand_f0 hf, byteOf_of_decodeOpcode hm]
  · simp [encode, instrOf_operand_f1 hf, byteOf_of_decodeOpcode hm]

/-! ## The default OPCODE_MAP -/

/-- Settles O32: the decoder computes on each word. -/
theorem defaultWordsDecode : Obligations.DefaultWordsDecode := by
  unfold Obligations.DefaultWordsDecode
  decide

/-- Settles O33: a byte is legal where a mnemonic has it, and the 14 mnemonics have the 14 bytes. -/
theorem defaultMapHasFourteenLegalBytes : Obligations.DefaultMapHasFourteenLegalBytes := by
  intro op
  rw [Ne, decodeOpcode_eq_none]
  push Not
  constructor
  · rintro ⟨m, rfl⟩
    cases m <;> decide
  · intro hop
    fin_cases hop
    exacts [⟨.nop, rfl⟩, ⟨.sta, rfl⟩, ⟨.lda, rfl⟩, ⟨.add, rfl⟩, ⟨.or, rfl⟩, ⟨.and, rfl⟩, ⟨.not, rfl⟩, ⟨.sub, rfl⟩,
      ⟨.jmp, rfl⟩, ⟨.jn, rfl⟩, ⟨.jz, rfl⟩, ⟨.mul, rfl⟩, ⟨.div, rfl⟩, ⟨.hlt, rfl⟩]

end Sys2Proof.Machine

/-! PROOFS. The step of 30_encoding.md R70: when it is defined, how it ends a run, and what it does not read. -/

namespace Sys2Proof.Machine

/-! ## NOT -/

/-- NOT, whole. -/
theorem exec_not (s : State) :
    exec .not s = .next ((s.setAc (aluNot s.ac)).advance s.params.notPcAdvance.toNat) := rfl

theorem aluNot_toNat (x : Byte) : (aluNot x).toNat = 255 - x.toNat := by
  rw [aluNot, BitVec.toNat_ofNat]
  exact Nat.mod_eq_of_lt (by omega)

/-- The complement, bit by bit (R122). -/
theorem aluNot_getLsbD (x : Byte) {k : Nat} (hk : k < 8) : (aluNot x).getLsbD k = !x.getLsbD k := by
  rw [aluNot_eq, BitVec.getLsbD_not, decide_eq_true hk, Bool.true_and]

/-- Settles O10: NOT is `setAc` of the complement, then an advance by NOT_PC_ADVANCE, which is 1 or 2. -/
theorem notComplementsAc : Obligations.NotComplementsAc := by
  refine ⟨rfl, rfl, fun s => ⟨_, exec_not s, aluNot_toNat s.ac, fun k => aluNot_getLsbD s.ac, ?one, ?two,
    ((OnlyAcPc.refl s).setAc (aluNot s.ac)).advance s.params.notPcAdvance.toNat⟩⟩
  case one => intro h; rw [h]; exact addrAdd_toNat s.pc 1
  case two => intro h; rw [h]; exact addrAdd_toNat s.pc 2

/-! ## The instruction at PC -/

/-- The bytes of an instruction at PC and after it are those it is made from. -/
theorem instrOf_of_holdsAt_encode {map : OpcodeMap} {s : State} {i : Instr} {pc : Byte}
    (h : s.holdsAt pc (encode map i)) : instrOf i.mnemonic (s.memRead (operandAddr pc)) = i :=
  instrOf_of_operand fun _ hb => (memRead_operandAddr_of_holdsAt_encode h hb).symm

/-- A step at an unambiguous instruction's bytes runs it. -/
theorem step_of_holdsAt_encode {s : State} {i : Instr} (hr : s.rs = .running) (hb : s.boundReached = false)
    (hwf : i.wf s.params.opcodeMap) (h : s.holdsAt s.pc (encode s.params.opcodeMap i)) :
    step s = exec i s.countStep := by
  rw [step_at_opcode hr hb (decodeOpcode_of_holdsAt_encode hwf h), instrOf_of_holdsAt_encode h]

/-- Settles O15: the bytes at PC decode to the instruction, and `countStep` counts the step before its body runs. -/
theorem stepRunsTheInstructionAtPc : Obligations.StepRunsTheInstructionAtPc := fun _ _ => step_of_holdsAt_encode

/-! ## Where a step is defined -/

/-- Once a run has ended, a step is stuck on how it ended. -/
theorem step_of_not_running {s : State} (hr : s.rs ≠ .running) : step s = .fault (.runEnded s.rs) := by
  cases h : s.rs
  case running => exact absurd h hr
  all_goals simp only [step, cycle, h]

/-- Settles O16: a running core answers a next state, and an ended run is stuck. -/
theorem stepIsDefinedExactlyWhileRunning : Obligations.StepIsDefinedExactlyWhileRunning := by
  refine fun s => ⟨⟨fun ⟨t, ht⟩ => (step_cases ht).1, step_answers_next⟩, step_of_not_running, fun r h => ?_⟩
  by_cases hr : s.rs = .running
  · obtain ⟨t, ht⟩ := step_answers_next hr
    rw [ht] at h
    cases h
  · rw [step_of_not_running hr] at h
    cases h

/-! ## What an instruction does to RS, NSTEP and the parameters -/

/-- Only HLT sets RS (10_state.md R27). -/
theorem exec_rs {m : Mnemonic} {a : Byte} {s t : State} (h : exec (instrOf m a) s = .next t) :
    t.rs = if m = .hlt then .halted else s.rs := by
  cases m
  case div =>
    change execDiv a s = .next t at h
    by_cases hz : s.memRead a = 0#8
    · rw [execDiv_of_zero hz] at h; cases h; rfl
    · rw [execDiv_of_ne_zero hz] at h; cases h; rfl
  case jn => cases h; exact jumpIf_rs s s.flagN a
  case jz => cases h; exact jumpIf_rs s s.flagZ a
  all_goals cases h; rfl

/-- No instruction counts a step or changes a parameter. -/
theorem exec_nstep_params {i : Instr} {s t : State} (h : exec i s = .next t) :
    t.nstep = s.nstep ∧ t.params = s.params := by
  cases i
  case div a =>
    by_cases hz : s.memRead a = 0#8
    · rw [exec_div_of_zero hz] at h; cases h; exact ⟨rfl, rfl⟩
    · rw [exec_div_of_ne_zero hz] at h; cases h; exact ⟨rfl, rfl⟩
  case jn a => cases h; exact ⟨jumpIf_nstep s s.flagN a, jumpIf_params s s.flagN a⟩
  case jz a => cases h; exact ⟨jumpIf_nstep s s.flagZ a, jumpIf_params s s.flagZ a⟩
  all_goals cases h; exact ⟨rfl, rfl⟩

/-- RS after a step, as one case analysis on the bound and the byte at PC. -/
theorem step_rs {s t : State} (h : step s = .next t) :
    t.rs = if s.boundReached then .stepLimit else
      match decodeOpcode s.params.opcodeMap (s.memRead s.pc) with
      | none => .unknownOpcode
      | some .hlt => .halted
      | some _ => .running := by
  obtain ⟨hr, ⟨hb, rfl⟩ | ⟨hb, m, hm, hexec⟩ | ⟨hb, hm, rfl⟩⟩ := step_cases h
  · simp [hb]
  · rw [exec_rs hexec, hb, hm, State.countStep_rs, hr]
    cases m <;> rfl
  · simp [hb, hm]

/-- Settles O17: a step at the bound is `stop`, and the four ends of `step_rs` exclude each other. -/
theorem runStatusTransitions : Obligations.RunStatusTransitions := by
  refine ⟨fun s hr hb => step_at_bound hr hb, fun s t h => ?_⟩
  rw [step_rs h]
  cases s.boundReached
  case true => simp
  case false =>
    rcases decodeOpcode s.params.opcodeMap (s.memRead s.pc) with - | m
    · simp
    · cases m <;> simp

/-- Settles O19: a DIV by zero is the report and the advance, and an unknown byte the report and the stop, after the step
is counted. -/
theorem conditionsArePrecise : Obligations.ConditionsArePrecise := by
  refine fun s hr hb => ⟨fun hm hz => ?div, fun hm => ?unknown⟩
  case div =>
    rw [step_at_opcode hr hb hm]
    exact exec_div_of_zero hz
  case unknown => exact step_at_unknown hr hb hm

/-! ## Signed arithmetic -/

/-- Settles O22: `aluSub` and `aluMul` are the words' own difference and product, which agree with the signed ones; 0xFE
by 0x02 is evaluated. -/
theorem subAndMulAgreeWithSigned : Obligations.SubAndMulAgreeWithSigned := by
  refine ⟨fun a s t h => ?sub, fun a s t h => ?mul, fun a s t hac hm h => ?div⟩
  case sub =>
    rw [exec_ac (m := .sub) h, acResult, aluSub_eq]
    exact BitVec.toInt_sub
  case mul =>
    rw [exec_ac (m := .mul) h, acResult, aluMul, BitVec.ofNat_mul, BitVec.ofNat_toNat, BitVec.ofNat_toNat]
    exact BitVec.toInt_mul ..
  case div =>
    rw [exec_ac (m := .div) h, hac, hm]
    decide

/-! ## EV and NSTEP are not read -/

/-- The state with another event log and step count. -/
def State.withLog (s : State) (ev : List Event) (n : Nat) : State := { s with ev := ev, nstep := n }

theorem sameCore_iff {s s' : State} : SameCore s s' ↔ s' = s.withLog s'.ev s'.nstep := by
  cases s
  cases s'
  simp [SameCore, State.withLog]

theorem sameCore_withLog (s : State) (ev : List Event) (n : Nat) : SameCore s (s.withLog ev n) :=
  ⟨rfl, rfl, rfl, rfl, rfl⟩

theorem jumpIf_withLog (s : State) (ev : List Event) (n : Nat) (taken : Bool) (a : Byte) :
    (s.withLog ev n).jumpIf taken a = (s.jumpIf taken a).withLog ev n := by
  cases taken <;> rfl

/-- An instruction does the same to the rest of the state whatever EV and NSTEP hold. -/
theorem exec_withLog {i : Instr} {s t : State} (h : exec i s = .next t) (ev : List Event) (n : Nat) :
    ∃ ev', exec i (s.withLog ev n) = .next (t.withLog ev' n) := by
  cases i
  case div a =>
    by_cases hz : s.memRead a = 0#8
    · rw [exec_div_of_zero hz] at h
      cases h
      exact ⟨_, exec_div_of_zero (s := s.withLog ev n) hz⟩
    · rw [exec_div_of_ne_zero hz] at h
      cases h
      exact ⟨_, exec_div_of_ne_zero (s := s.withLog ev n) hz⟩
  case jn a => cases h; exact ⟨ev, congrArg _ (jumpIf_withLog s ev n s.flagN a)⟩
  case jz a => cases h; exact ⟨ev, congrArg _ (jumpIf_withLog s ev n s.flagZ a)⟩
  all_goals cases h; exact ⟨ev, rfl⟩

/-- From states with the same core, an instruction leads to states with the same core. -/
theorem exec_sameCore {i : Instr} {s s' t : State} (hs : SameCore s s') (h : exec i s = .next t) :
    ∃ t', exec i s' = .next t' ∧ SameCore t t' := by
  rw [sameCore_iff.1 hs]
  obtain ⟨ev', h'⟩ := exec_withLog h s'.ev s'.nstep
  exact ⟨_, h', sameCore_withLog t ev' s'.nstep⟩

theorem SameCore.countStep {s s' : State} (h : SameCore s s') : SameCore s.countStep s'.countStep := h

theorem SameCore.raise_unknownOpcode {s s' : State} (h : SameCore s s') (pc b : Byte) :
    SameCore (s.raise (.unknownOpcode pc b)) (s'.raise (.unknownOpcode pc b)) := by
  obtain ⟨hac, hpc, hmem, -, hp⟩ := h
  exact ⟨hac, hpc, hmem, rfl, hp⟩

theorem boundReached_eq_false_of_maxSteps_none {s : State} (h : s.params.maxSteps = none) :
    s.boundReached = false := by
  rw [State.boundReached, h]

/-- Settles O23: `exec_sameCore`, and an unbounded step fetches the same bytes. -/
theorem eventLogAndStepCountAreNotRead : Obligations.EventLogAndStepCountAreNotRead := by
  refine ⟨fun i s s' t => exec_sameCore, fun s s' t hs hmax h => ?_⟩
  have ⟨hac, hpc, hmem, hrs, hp⟩ := hs
  have hread : ∀ a, s'.memRead a = s.memRead a := fun a => by rw [State.memRead, State.memRead, hmem]
  have hb' : s'.boundReached = false := boundReached_eq_false_of_maxSteps_none (by rw [hp, hmax])
  obtain ⟨hr, ⟨hb, -⟩ | ⟨-, m, hm, hexec⟩ | ⟨-, hm, rfl⟩⟩ := step_cases h
  · rw [boundReached_eq_false_of_maxSteps_none hmax] at hb
    cases hb
  · have hm' : decodeOpcode s'.params.opcodeMap (s'.memRead s'.pc) = some m := by rw [hp, hpc, hread, hm]
    rw [step_at_opcode (hrs.trans hr) hb' hm', hread, hpc]
    exact exec_sameCore hs.countStep hexec
  · have hm' : decodeOpcode s'.params.opcodeMap (s'.memRead s'.pc) = none := by rw [hp, hpc, hread, hm]
    rw [step_at_unknown (hrs.trans hr) hb' hm', hread, hpc]
    exact ⟨_, rfl, hs.countStep.raise_unknownOpcode _ _⟩

end Sys2Proof.Machine

/-! PROOFS. The machine with stored N and Z of 10_state.md R25. -/

namespace Sys2Proof.Machine

/-- Flip-flops that agree with AC make JN and JZ jump as the derived flags do. -/
theorem Latched.body_eq_exec {l : Latched} (hl : l.inSync) {s : State} (hac : s.ac = l.core.ac) (i : Instr) :
    l.body s i = exec i s := by
  obtain ⟨hn, hz⟩ := hl
  cases i
  case jn a => rw [exec_jn, State.flagN, hac, ← hn]; rfl
  case jz a => rw [exec_jz, State.flagZ, hac, ← hz]; rfl
  all_goals rfl

/-- An instruction that does not write AC leaves it. -/
theorem exec_ac_of_not_writesAc {m : Mnemonic} (hm : writesAc m = false) {a : Byte} {s t : State}
    (h : exec (instrOf m a) s = .next t) : t.ac = s.ac := by
  rw [exec_ac h]
  refine acResult_of_not_writer ?_ ..
  cases m
  case nop | sta | jmp | jn | jz | hlt => decide
  all_goals cases hm

/-- Flip-flops written where AC is written stay in agreement with it. -/
theorem Latched.update_inSync {l : Latched} (hl : l.inSync) {m : Mnemonic} {t : State}
    (hkeep : writesAc m = false → t.ac = l.core.ac) : (l.update m t).core = t ∧ (l.update m t).inSync := by
  unfold Latched.update
  cases hw : writesAc m with
  | true => exact ⟨rfl, rfl, rfl⟩
  | false =>
    refine ⟨rfl, ?_⟩
    change l.n = negative t.ac ∧ l.z = zero t.ac
    rw [hkeep hw]
    exact hl

/-! ## The latched step, case by case as `step_cases` -/

theorem Latched.step_at_bound {l : Latched} (hr : l.core.rs = .running) (hb : l.core.boundReached = true) :
    l.step = .next { l with core := l.core.stop .stepLimit } := by
  simp only [Latched.step, hr, hb, if_true]

theorem Latched.step_at_opcode {l : Latched} (hl : l.inSync) (hr : l.core.rs = .running)
    (hb : l.core.boundReached = false) {m : Mnemonic}
    (hm : decodeOpcode l.core.params.opcodeMap (l.core.memRead l.core.pc) = some m) {t : State}
    (hexec : exec (instrOf m (l.core.memRead (operandAddr l.core.pc))) l.core.countStep = .next t) :
    l.step = .next (l.update m t) := by
  rcases decode_fetchBytes l.core with ⟨m', hm', hd⟩ | ⟨hn, -⟩
  · rw [hm] at hm'
    cases hm'
    simp only [Latched.step, hr, hb, hd, Latched.body_eq_exec hl (State.countStep_ac l.core), hexec,
      instrOf_mnemonic, Bool.false_eq_true, if_false]
  · rw [hm] at hn
    cases hn

theorem Latched.step_at_unknown {l : Latched} (hr : l.core.rs = .running) (hb : l.core.boundReached = false)
    (hn : decodeOpcode l.core.params.opcodeMap (l.core.memRead l.core.pc) = none) :
    l.step =
      .next { l with core := l.core.countStep.raise (.unknownOpcode l.core.pc (l.core.memRead l.core.pc)) } := by
  rcases decode_fetchBytes l.core with ⟨m, hm, -⟩ | ⟨-, hd⟩
  · rw [hn] at hm
    cases hm
  · simp only [Latched.step, hr, hb, hd, Bool.false_eq_true, if_false]

theorem Latched.step_of_not_running {l : Latched} (hr : l.core.rs ≠ .running) :
    l.step = .fault (.runEnded l.core.rs) := by
  cases h : l.core.rs
  case running => exact absurd h hr
  all_goals simp only [Latched.step, h]

/-- Where the model steps, so does the latched machine, to the same state and in agreement. -/
theorem Latched.step_simulates {l : Latched} (hl : l.inSync) {t : State} (h : Machine.step l.core = .next t) :
    ∃ l', l.step = .next l' ∧ l'.core = t ∧ l'.inSync := by
  obtain ⟨hr, ⟨hb, rfl⟩ | ⟨hb, m, hm, hexec⟩ | ⟨hb, hm, rfl⟩⟩ := step_cases h
  · exact ⟨_, Latched.step_at_bound hr hb, rfl, hl⟩
  · exact ⟨_, Latched.step_at_opcode hl hr hb hm hexec,
      Latched.update_inSync hl fun hw => exec_ac_of_not_writesAc (s := l.core.countStep) hw hexec⟩
  · exact ⟨_, Latched.step_at_unknown hr hb hm, rfl, hl⟩

/-- Settles O24: `Latched.step_simulates`, and both machines are stuck on the same ended run. -/
theorem latchedFlagsGiveTheSameSteps : Obligations.LatchedFlagsGiveTheSameSteps := by
  refine fun l hl => ⟨fun t => Latched.step_simulates hl, fun f h => ?_⟩
  have hr : l.core.rs ≠ .running := by
    intro hr
    obtain ⟨t, ht⟩ := step_answers_next hr
    rw [ht] at h
    cases h
  rw [Machine.step_of_not_running hr] at h
  cases h
  exact Latched.step_of_not_running hr

end Sys2Proof.Machine

/-! PROOFS. Memory of 20_memory.md: what a step writes and reads, and the sequential order of a run's accesses. -/

namespace Sys2Proof.Machine

/-! ## The canonical form -/

/-- A canonical memory lists its first address because it reads otherwise than an unlisted one. -/
theorem Memory.head_ne_of_from {c : Host.Cell} {rest m : Memory} (hw : Memory.wf (c :: rest))
    (hf : Memory.from (c.1 + 1) m) : ¬ ∀ k < memSize, Memory.read (c :: rest) k = Memory.read m k := by
  intro h
  obtain ⟨-, hc, hne, -⟩ := Memory.wf_cons.1 hw
  have hhead : Memory.read (c :: rest) c.1 = c.2 := if_pos rfl
  exact hne (by rw [← hhead, h c.1 hc, Memory.read_of_from hf (Nat.lt_succ_self c.1)])

theorem Memory.from_cons {c : Host.Cell} {rest : Memory} {k : Nat} (hk : k ≤ c.1)
    (hf : Memory.from (c.1 + 1) rest) : Memory.from k (c :: rest) := by
  intro d hd
  rcases List.mem_cons.1 hd with rfl | hd
  · exact hk
  · exact (Nat.le_succ_of_le hk).trans (hf d hd)

theorem Memory.read_cons_of_ne {c : Host.Cell} {rest : Memory} {k : Nat} (hk : c.1 ≠ k) :
    Memory.read (c :: rest) k = Memory.read rest k := if_neg hk

/-- Canonical memories that read the same at every address are equal: neither can list an address before the other. -/
theorem Memory.ext_of_wf {m m' : Memory} (hw : Memory.wf m) (hw' : Memory.wf m')
    (h : ∀ k < memSize, Memory.read m k = Memory.read m' k) : m = m' := by
  induction m generalizing m' with
  | nil =>
    cases m' with
    | nil => rfl
    | cons d rest' =>
      exact absurd (fun k hk => (h k hk).symm) (Memory.head_ne_of_from hw' (fun c hc => nomatch hc))
  | cons c rest ih =>
    cases m' with
    | nil => exact absurd h (Memory.head_ne_of_from hw (fun c hc => nomatch hc))
    | cons d rest' =>
      obtain ⟨hf, hc, -, hrest⟩ := Memory.wf_cons.1 hw
      obtain ⟨hf', -, -, hrest'⟩ := Memory.wf_cons.1 hw'
      rcases Nat.lt_trichotomy c.1 d.1 with hlt | heq | hgt
      · exact absurd h (Memory.head_ne_of_from hw (Memory.from_cons hlt hf'))
      · have hbyte : c.2 = d.2 := by simpa [Memory.read, heq] using h c.1 hc
        obtain rfl : c = d := Prod.ext heq hbyte
        rw [ih hrest hrest' fun k hk => ?_]
        by_cases hck : c.1 = k
        · rw [Memory.read_of_from hf (by omega), Memory.read_of_from hf' (by omega)]
        · rw [← Memory.read_cons_of_ne (c := c) hck, h k hk, Memory.read_cons_of_ne hck]
      · exact absurd (fun k hk => (h k hk).symm) (Memory.head_ne_of_from hw' (Memory.from_cons hgt hf))

/-- Settles O30: `Memory.ext_of_wf`, every address below 0x100 being a byte. -/
theorem canonicalMemoriesAreEqual : Obligations.CanonicalMemoriesAreEqual := by
  intro m m' hw hw' h
  refine Memory.ext_of_wf hw hw' fun k hk => ?_
  have hbyte : (BitVec.ofNat 8 k).toNat = k := Nat.mod_eq_of_lt hk
  rw [← hbyte]
  exact h _

/-! ## What a step reads and writes -/

/-- Accesses that are all reads, and return the bytes of `s`. -/
def State.readsOf (s : State) (xs : List Access) : Prop := ∀ x ∈ xs, x.isRead = true ∧ x.value = s.memRead x.addr

/-- What a step's writes make of memory `m`: nothing is written, or one byte is. -/
inductive StepWrites (m : Memory) : List Access → Memory → Prop
  | nothing : StepWrites m [] m
  | byte (a v : Byte) : StepWrites m [⟨.dataWrite, a, v⟩] (Memory.write m a.toNat v)

@[simp] theorem dataAccess_countStep (s : State) (a : Byte) (m : Mnemonic) :
    dataAccess s.countStep a m = dataAccess s a m := by
  cases m <;> rfl

theorem dataAccess_f0 {m : Mnemonic} (hf : formatOf m = .f0) (s : State) (a : Byte) : dataAccess s a m = [] := by
  cases m
  case nop | not | hlt => rfl
  all_goals cases hf

theorem readsOf_dataAccess {m : Mnemonic} (hm : m ≠ .sta) (s : State) (a : Byte) :
    s.readsOf (dataAccess s a m) := by
  cases m
  case sta => exact absurd rfl hm
  all_goals simp [State.readsOf, dataAccess, State.readAccess, Access.isRead]

/-- An instruction leaves memory, but for STA. -/
theorem exec_mem_of_ne_sta {m : Mnemonic} (hm : m ≠ .sta) {a : Byte} {s t : State}
    (h : exec (instrOf m a) s = .next t) : t.mem = s.mem := by
  rw [exec_mem h]
  cases m
  case sta => exact absurd rfl hm
  all_goals rfl

/-- The fetches at an opcode byte are reads, and the data access follows them. -/
theorem instrAccesses_of_opcode {s : State} {m : Mnemonic}
    (hm : decodeOpcode s.params.opcodeMap (s.memRead s.pc) = some m) :
    ∃ fetches, s.readsOf fetches ∧
      instrAccesses s = fetches ++ dataAccess s (s.memRead (operandAddr s.pc)) m := by
  cases hf : formatOf m with
  | f0 =>
    refine ⟨_, ?_, (instrAccesses_of_f0 hm hf).trans (by rw [dataAccess_f0 hf, List.append_nil])⟩
    simp [State.readsOf, State.readAccess, Access.isRead]
  | f1 =>
    refine ⟨_, ?_, instrAccesses_of_f1 hm hf⟩
    simp [State.readsOf, State.readAccess, Access.isRead]

/-- A step at the bound makes no access (60_exceptions.md R148). -/
theorem stepAccesses_of_boundReached {s : State} (hb : s.boundReached = true) : stepAccesses s = [] := by
  simp [stepAccesses, hb]

/-- All that a step does to memory: it reads some bytes, then writes at most one (20_memory.md R41, R46). -/
theorem stepAccesses_cases {s t : State} (h : step s = .next t) :
    ∃ reads writes, stepAccesses s = reads ++ writes ∧ s.readsOf reads ∧ StepWrites s.mem writes t.mem := by
  obtain ⟨hr, ⟨hb, rfl⟩ | ⟨hb, m, hm, hexec⟩ | ⟨hb, hm, rfl⟩⟩ := step_cases h
  · exact ⟨[], [], stepAccesses_of_boundReached hb, fun _ hx => (List.not_mem_nil hx).elim, .nothing⟩
  · obtain ⟨fetches, hreads, hacc⟩ := instrAccesses_of_opcode hm
    rw [stepAccesses_of_fetch hr hb, hacc]
    by_cases hsta : m = .sta
    · subst hsta
      cases hexec
      exact ⟨fetches, _, rfl, hreads, .byte (s.memRead (operandAddr s.pc)) s.ac⟩
    · have hdata := readsOf_dataAccess hsta s (s.memRead (operandAddr s.pc))
      refine ⟨_, [], (List.append_nil _).symm, fun x hx => ?_, ?_⟩
      · exact (List.mem_append.1 hx).elim (hreads x) (hdata x)
      · rw [exec_mem_of_ne_sta hsta hexec]
        exact .nothing
  · refine ⟨[s.readAccess .opcodeFetch s.pc], [], ?_, ?_, .nothing⟩
    · rw [stepAccesses_of_fetch hr hb, instrAccesses_of_unknown hm, List.append_nil]
    · simp [State.readsOf, State.readAccess, Access.isRead]

/-! ## The last write to a byte -/

/-- The last write is in the second list, if it has one. -/
theorem lastWrite_append (a : Byte) (xs ys : List Access) :
    lastWrite a (xs ++ ys) = (lastWrite a ys).or (lastWrite a xs) := by
  induction xs with
  | nil => exact Option.or_none.symm
  | cons x xs ih =>
    rw [List.cons_append, lastWrite, ih]
    cases lastWrite a ys <;> rfl

theorem lastWrite_of_readsOf {s : State} {xs : List Access} (h : s.readsOf xs) (a : Byte) :
    lastWrite a xs = none := by
  induction xs with
  | nil => rfl
  | cons x xs ih =>
    obtain ⟨hx, hxs⟩ := List.forall_mem_cons.1 h
    simp [lastWrite, ih hxs, hx.1]

theorem StepWrites.read {m m' : Memory} {writes : List Access} (h : StepWrites m writes m') (hw : Memory.wf m)
    (b : Byte) : Memory.read m' b.toNat = (lastWrite b writes).getD (Memory.read m b.toNat) := by
  cases h with
  | nothing => rfl
  | byte a v =>
    rw [Memory.read_write hw]
    by_cases hab : a = b <;> simp [lastWrite, Access.isRead, hab, BitVec.toNat_inj]

/-- A byte after a step: the byte the step wrote there, or the byte before. -/
theorem step_memRead {s t : State} (hw : Memory.wf s.mem) (h : step s = .next t) (b : Byte) :
    t.memRead b = (lastWrite b (stepAccesses s)).getD (s.memRead b) := by
  obtain ⟨reads, writes, hacc, hreads, hwrites⟩ := stepAccesses_cases h
  rw [hacc, lastWrite_append, lastWrite_of_readsOf hreads, Option.or_none]
  exact hwrites.read hw b

theorem StepWrites.wf {m m' : Memory} {writes : List Access} (h : StepWrites m writes m') (hw : Memory.wf m) :
    Memory.wf m' := by
  cases h with
  | nothing => exact hw
  | byte a v => exact Memory.wf_write a.isLt hw

/-- A step keeps the canonical form. -/
theorem step_mem_wf {s t : State} (hw : Memory.wf s.mem) (h : step s = .next t) : Memory.wf t.mem := by
  obtain ⟨_, _, -, -, hwrites⟩ := stepAccesses_cases h
  exact hwrites.wf hw

/-- The byte a step wrote reads as written. -/
theorem StepWrites.read_written {m m' : Memory} {writes : List Access} (h : StepWrites m writes m')
    (hw : Memory.wf m) {x : Access} (hx : x ∈ writes) : Memory.read m' x.addr.toNat = x.value := by
  cases h with
  | nothing => cases hx
  | byte a v =>
    obtain rfl := List.mem_singleton.1 hx
    exact (Memory.read_write hw a.toNat v a.toNat).trans (if_pos rfl)

theorem Access.isRead_eq_false_iff (x : Access) : x.isRead = false ↔ x.kind = .dataWrite := by
  unfold Access.isRead
  cases x.kind <;> simp

theorem lastWrite_eq_none {a : Byte} {xs : List Access} (h : ∀ x ∈ xs, x.kind = .dataWrite → x.addr ≠ a) :
    lastWrite a xs = none := by
  induction xs with
  | nil => rfl
  | cons x xs ih =>
    obtain ⟨hx, hxs⟩ := List.forall_mem_cons.1 h
    have hno : ¬ (x.isRead = false ∧ x.addr = a) := fun ⟨hw, ha⟩ => hx ((Access.isRead_eq_false_iff x).1 hw) ha
    simp only [lastWrite, ih hxs, if_neg hno]

/-- Settles O26: of a step's accesses only its one write is no read, and a byte with no write to it is as before. -/
theorem stepWritesOnlyItsDataWrite : Obligations.StepWritesOnlyItsDataWrite := by
  intro s t hw h
  refine ⟨fun x hx hkind => ?written, fun b hb => ?others⟩
  case written =>
    obtain ⟨reads, writes, hacc, hreads, hwrites⟩ := stepAccesses_cases h
    rw [hacc] at hx
    rcases List.mem_append.1 hx with hx | hx
    · have hread := (hreads x hx).1
      rw [(Access.isRead_eq_false_iff x).2 hkind] at hread
      cases hread
    · exact hwrites.read_written hw hx
  case others => rw [step_memRead hw h, lastWrite_eq_none hb, Option.getD_none]

/-! ## The accesses of a run -/

/-- In the list, every read returns the latest earlier write to its address, or the byte of `m` (20_memory.md R49). -/
def Sequential (m : Byte → Byte) (xs : List Access) : Prop :=
  ∀ before x after, xs = before ++ x :: after → x.isRead = true →
    x.value = (lastWrite x.addr before).getD (m x.addr)

/-- A list is sequential where its first part is, and its second part is over the memory the first part leaves. -/
theorem Sequential.append {m : Byte → Byte} {xs ys : List Access} (hx : Sequential m xs)
    (hy : Sequential (fun b => (lastWrite b xs).getD (m b)) ys) : Sequential m (xs ++ ys) := by
  intro before x after h hread
  rcases List.append_eq_append_iff.1 h with ⟨mid, rfl, hys⟩ | ⟨mid, rfl, hxs⟩
  · rw [hy mid x after hys hread, lastWrite_append]
    cases lastWrite x.addr mid <;> rfl
  · cases mid with
    | nil => exact (hy [] x after hxs.symm hread).trans (by rw [List.append_nil]; rfl)
    | cons z mid =>
      obtain ⟨rfl, rfl⟩ := List.cons.inj hxs
      exact hx before x mid rfl hread

theorem Sequential.nil (m : Byte → Byte) : Sequential m [] := fun before x after h => by simp at h

theorem Sequential.of_readsOf {s : State} {xs : List Access} (h : s.readsOf xs) : Sequential s.memRead xs := by
  rintro before x after rfl -
  have hbefore : s.readsOf before := fun y hy => h y (List.mem_append_left _ hy)
  rw [lastWrite_of_readsOf hbefore, Option.getD_none]
  exact (h x (by simp)).2

theorem Sequential.of_stepWrites {m m' : Memory} {writes : List Access} (h : StepWrites m writes m')
    (f : Byte → Byte) : Sequential f writes := by
  rintro before x after hxs hread
  have hx : x ∈ writes := by simp [hxs]
  cases h with
  | nothing => cases hx
  | byte a v =>
    obtain rfl := List.mem_singleton.1 hx
    cases hread

/-- A step's accesses are sequential. -/
theorem step_sequential {s t : State} (h : step s = .next t) : Sequential s.memRead (stepAccesses s) := by
  obtain ⟨reads, writes, hacc, hreads, hwrites⟩ := stepAccesses_cases h
  rw [hacc]
  exact (Sequential.of_readsOf hreads).append (Sequential.of_stepWrites hwrites _)

theorem runFor_of_step {s t : State} (h : step s = .next t) (n : Nat) : runFor (n + 1) s = runFor n t := by
  simp only [runFor, h]

/-- A run stays where it ended (60_exceptions.md R146). -/
theorem runFor_of_not_running {s : State} (hr : s.rs ≠ .running) (n : Nat) : runFor n s = s := by
  cases n with
  | zero => rfl
  | succ n => simp only [runFor, step_of_not_running hr]

theorem runAccesses_of_step {s t : State} (h : step s = .next t) (n : Nat) :
    runAccesses (n + 1) s = stepAccesses s ++ runAccesses n t := by
  simp only [runAccesses, h]

/-- A run that has ended makes no access. -/
theorem runAccesses_of_not_running {s : State} (hr : s.rs ≠ .running) (n : Nat) : runAccesses n s = [] := by
  cases n with
  | zero => rfl
  | succ n => simp [runAccesses, step_of_not_running hr, stepAccesses, hr]

/-- Induction along a run: no step is asked for, the run has ended, or it takes a step and goes on from there. -/
theorem run_induction {P : Nat → State → Prop} (zero : ∀ s, P 0 s)
    (ended : ∀ n s, s.rs ≠ .running → P (n + 1) s)
    (step : ∀ n s t, s.rs = .running → Machine.step s = .next t → P n t → P (n + 1) s) (n : Nat) (s : State) :
    P n s := by
  induction n generalizing s with
  | zero => exact zero s
  | succ n ih =>
    by_cases hr : s.rs = .running
    · obtain ⟨t, ht⟩ := step_answers_next hr
      exact step n s t hr ht (ih t)
    · exact ended n s hr

/-- A run's accesses are sequential, and so is the memory it leaves. -/
theorem run_sequential (n : Nat) {s : State} (hw : Memory.wf s.mem) :
    Sequential s.memRead (runAccesses n s) ∧
    ∀ b : Byte, (runFor n s).memRead b = (lastWrite b (runAccesses n s)).getD (s.memRead b) := by
  induction n, s using run_induction with
  | zero s => exact ⟨Sequential.nil _, fun _ => rfl⟩
  | ended n s hr =>
    rw [runFor_of_not_running hr, runAccesses_of_not_running hr]
    exact ⟨Sequential.nil _, fun _ => rfl⟩
  | step n s t hr ht ih =>
    obtain ⟨hseq, hmem⟩ := ih (step_mem_wf hw ht)
    have hread : t.memRead = fun b => (lastWrite b (stepAccesses s)).getD (s.memRead b) :=
      funext (step_memRead hw ht)
    rw [runFor_of_step ht, runAccesses_of_step ht]
    rw [hread] at hseq
    refine ⟨(step_sequential ht).append hseq, fun b => ?_⟩
    rw [hmem, hread, lastWrite_append]
    cases lastWrite b (runAccesses n t) <;> rfl

/-- Settles O28: `run_sequential`, by induction along the run. -/
theorem readsReturnTheLatestWrite : Obligations.ReadsReturnTheLatestWrite := fun n _ => run_sequential n

/-! ## Self-modifying code -/

/-- What a step fetches: one byte, or two. -/
theorem fetchBytes_cases (s : State) :
    s.fetchBytes = [s.memRead s.pc] ∨ s.fetchBytes = [s.memRead s.pc, s.memRead (operandAddr s.pc)] := by
  unfold State.fetchBytes
  split
  exacts [.inr rfl, .inl rfl, .inl rfl]

theorem head?_fetchBytes (s : State) : s.fetchBytes.head? = some (s.memRead s.pc) := by
  rcases fetchBytes_cases s with h | h <;> rw [h] <;> rfl

/-- The second byte fetched, where there is one, is the byte after PC. -/
theorem fetchBytes_one {s : State} (hlen : s.fetchBytes.length = 2) :
    s.fetchBytes[1]? = some (s.memRead (operandAddr s.pc)) := by
  rcases fetchBytes_cases s with h | h
  · rw [h] at hlen
    cases hlen
  · rw [h]
    rfl

/-- Settles O29: the step at STA leaves AC at `a`, and the next fetch reads the memory it wrote. -/
theorem fetchSeesTheStoreBeforeIt : Obligations.FetchSeesTheStoreBeforeIt := by
  intro s t a hw hr hb hwf hat h
  rw [step_of_holdsAt_encode hr hb hwf hat] at h
  have hstored : t.memRead a = s.ac := exec_sta_memRead (s := s.countStep) hw h
  refine ⟨fun hpc => ?opcode, fun hpc hlen => ?operand⟩
  case opcode => rw [head?_fetchBytes, hpc, hstored]
  case operand => rw [fetchBytes_one hlen, hpc, hstored]

/-! ## The bytes a step does not read -/

/-- The state with another memory. -/
def State.withMem (s : State) (μ : Memory) : State := { s with mem := μ }

@[simp] theorem State.withMem_pc (s : State) (μ : Memory) : (s.withMem μ).pc = s.pc := rfl

/-- The bytes that the reads among `xs` ask for are the same in `μ` as in `s`. -/
def State.readsAgree (s : State) (μ : Memory) (xs : List Access) : Prop :=
  ∀ x ∈ xs, x.isRead = true → Memory.read μ x.addr.toNat = s.memRead x.addr

theorem State.readsAgree.memRead {s : State} {μ : Memory} {xs : List Access} (h : s.readsAgree μ xs)
    {kind : AccessKind} {a : Byte} (hx : s.readAccess kind a ∈ xs) (hk : kind ≠ .dataWrite) :
    (s.withMem μ).memRead a = s.memRead a :=
  h _ hx (Bool.eq_true_of_not_eq_false (mt (Access.isRead_eq_false_iff _).1 hk))

theorem readAccess_withMem {s : State} {μ : Memory} {a : Byte} (h : (s.withMem μ).memRead a = s.memRead a)
    (kind : AccessKind) : (s.withMem μ).readAccess kind a = s.readAccess kind a := by
  rw [State.readAccess, State.readAccess, h]

theorem accumulate_withMem {s : State} {μ : Memory} {a : Byte} (h : (s.withMem μ).memRead a = s.memRead a)
    (f : Byte → Byte → Byte) : (s.withMem μ).accumulate f a = (s.accumulate f a).withMem μ := by
  rw [State.accumulate, memOperand_eq, h]
  rfl

theorem jumpIf_withMem (s : State) (μ : Memory) (taken : Bool) (a : Byte) :
    (s.withMem μ).jumpIf taken a = (s.jumpIf taken a).withMem μ := by
  cases taken <;> rfl

/-- An instruction makes the same data access, and does the same to the rest of the state, over another memory with the
same byte where it reads. -/
theorem exec_withMem {m : Mnemonic} {a : Byte} {s t : State} (h : exec (instrOf m a) s = .next t) {μ : Memory}
    (hread : s.readsAgree μ (dataAccess s a m)) :
    dataAccess (s.withMem μ) a m = dataAccess s a m ∧
      ∃ μ', exec (instrOf m a) (s.withMem μ) = .next (t.withMem μ') := by
  have hbyte (hm : dataAccess s a m = [s.readAccess .dataRead a]) : (s.withMem μ).memRead a = s.memRead a :=
    hread.memRead (hm ▸ List.mem_singleton_self _) (by decide)
  have haccess (hv : (s.withMem μ).memRead a = s.memRead a) :
      [(s.withMem μ).readAccess .dataRead a] = [s.readAccess .dataRead a] :=
    congrArg (fun x => [x]) (readAccess_withMem hv .dataRead)
  cases m
  case lda =>
    cases h
    exact ⟨haccess (hbyte rfl), μ, congrArg _ (accumulate_withMem (hbyte rfl) fun _ v => v)⟩
  case add | sub | mul | or | and =>
    cases h
    exact ⟨haccess (hbyte rfl), μ, congrArg _ (accumulate_withMem (hbyte rfl) _)⟩
  case div =>
    refine ⟨haccess (hbyte rfl), μ, ?_⟩
    change exec (.div a) s = .next t at h
    by_cases hz : s.memRead a = 0#8
    · rw [exec_div_of_zero hz] at h
      cases h
      exact exec_div_of_zero ((hbyte rfl).trans hz)
    · rw [exec_div_of_ne_zero hz] at h
      cases h
      exact (exec_div_of_ne_zero ((hbyte rfl).trans_ne hz)).trans (congrArg _ (accumulate_withMem (hbyte rfl) aluDiv))
  case sta => cases h; exact ⟨rfl, Memory.write μ a.toNat s.ac, rfl⟩
  case jn => cases h; exact ⟨rfl, μ, congrArg _ (jumpIf_withMem s μ s.flagN a)⟩
  case jz => cases h; exact ⟨rfl, μ, congrArg _ (jumpIf_withMem s μ s.flagZ a)⟩
  case nop | not | jmp | hlt => cases h; exact ⟨rfl, μ, rfl⟩

/-- An instruction's step makes the same accesses, and does the same to the rest of the state, over another memory with
the same bytes where it reads. -/
theorem step_at_opcode_withMem {s t : State} {μ : Memory} (hr : s.rs = .running) (hb : s.boundReached = false)
    {m : Mnemonic} (hm : decodeOpcode s.params.opcodeMap (s.memRead s.pc) = some m)
    (hexec : exec (instrOf m (s.memRead (operandAddr s.pc))) s.countStep = .next t)
    (hread : s.readsAgree μ (instrAccesses s)) :
    instrAccesses (s.withMem μ) = instrAccesses s ∧ ∃ μ', step (s.withMem μ) = .next (t.withMem μ') := by
  have hop : (s.withMem μ).memRead s.pc = s.memRead s.pc := hread.memRead List.mem_cons_self (by decide)
  have hm' : decodeOpcode s.params.opcodeMap ((s.withMem μ).memRead s.pc) = some m := by rw [hop, hm]
  rw [step_at_opcode (s := s.withMem μ) hr hb hm']
  cases hf : formatOf m with
  | f0 =>
    have hdata : s.countStep.readsAgree μ (dataAccess s.countStep (s.memRead (operandAddr s.pc)) m) := by
      simp [dataAccess_f0 hf, State.readsAgree]
    rw [instrAccesses_of_f0 hm hf, instrAccesses_of_f0 (s := s.withMem μ) hm' hf,
      instrOf_f0 hf _ (s.memRead (operandAddr s.pc))]
    exact ⟨congrArg (fun x => [x]) (readAccess_withMem hop .opcodeFetch), (exec_withMem hexec hdata).2⟩
  | f1 =>
    have hacc := instrAccesses_of_f1 hm hf
    have hoperand : (s.withMem μ).memRead (operandAddr s.pc) = s.memRead (operandAddr s.pc) :=
      hread.memRead (kind := .operandFetch) (by simp [hacc]) (by decide)
    have hdata : s.countStep.readsAgree μ (dataAccess s.countStep (s.memRead (operandAddr s.pc)) m) := by
      rw [dataAccess_countStep]
      exact fun x hx => hread x (hacc ▸ List.mem_append_right _ hx)
    obtain ⟨haccess, hstep⟩ := exec_withMem hexec hdata
    have hdataEq := ((dataAccess_countStep (s.withMem μ) _ m).symm.trans haccess).trans (dataAccess_countStep s _ m)
    refine ⟨?_, hoperand ▸ hstep⟩
    rw [hacc, instrAccesses_of_f1 (s := s.withMem μ) hm' hf, State.withMem_pc, readAccess_withMem hop,
      readAccess_withMem hoperand, hoperand, hdataEq]

/-- A step makes the same accesses, and does the same to the rest of the state, over another memory with the same bytes
where it reads. -/
theorem step_withMem {s t : State} {μ : Memory} (hread : s.readsAgree μ (stepAccesses s)) (h : step s = .next t) :
    stepAccesses (s.withMem μ) = stepAccesses s ∧ ∃ μ', step (s.withMem μ) = .next (t.withMem μ') := by
  obtain ⟨hr, ⟨hb, rfl⟩ | ⟨hb, m, hm, hexec⟩ | ⟨hb, hm, rfl⟩⟩ := step_cases h
  · rw [stepAccesses_of_boundReached hb, stepAccesses_of_boundReached (s := s.withMem μ) hb]
    exact ⟨rfl, μ, step_at_bound (s := s.withMem μ) hr hb⟩
  · rw [stepAccesses_of_fetch hr hb] at hread ⊢
    rw [stepAccesses_of_fetch (s := s.withMem μ) hr hb]
    exact step_at_opcode_withMem hr hb hm hexec hread
  · rw [stepAccesses_of_fetch hr hb] at hread ⊢
    have hop : (s.withMem μ).memRead s.pc = s.memRead s.pc := hread.memRead List.mem_cons_self (by decide)
    have hm' : decodeOpcode s.params.opcodeMap ((s.withMem μ).memRead s.pc) = none := by rw [hop, hm]
    rw [stepAccesses_of_fetch (s := s.withMem μ) hr hb, instrAccesses_of_unknown hm,
      instrAccesses_of_unknown (s := s.withMem μ) hm', State.withMem_pc, readAccess_withMem hop,
      step_at_unknown (s := s.withMem μ) hr hb hm', State.withMem_pc, hop]
    exact ⟨rfl, μ, rfl⟩

/-- Settles O27: `step_withMem` gives the step, and the same accesses make the same writes in both memories. -/
theorem stepReadsOnlyItsAccesses : Obligations.StepReadsOnlyItsAccesses := by
  intro s μ t hw hμ hread h
  obtain ⟨haccess, μ', h'⟩ := step_withMem hread h
  refine ⟨_, h', rfl, rfl, ⟨rfl, rfl, rfl, rfl⟩, fun b hb => ?_⟩
  have hb' : (s.withMem μ).memRead b = s.memRead b := hb
  rw [step_memRead hw h, step_memRead (s := s.withMem μ) hμ h', haccess, hb']

end Sys2Proof.Machine

/-! PROOFS. Reset and load of 70_reset_and_hazards.md, and the final-state report of 60_exceptions.md R159. -/

namespace Sys2Proof.Machine

/-! ## Loading -/

theorem memoryFrom_replicate_zero (k n : Nat) : memoryFrom k (List.replicate n unlistedByte) = [] := by
  induction n generalizing k with
  | zero => rfl
  | succ n ih => rw [List.replicate_succ, memoryFrom, ih, Memory.put, if_pos rfl]

/-- Four bytes, 256 bytes and any bytes after load as the 256 bytes alone (R160, R161, R162). -/
theorem load_append {header bytes : List Byte} (hh : header.length = headerSize) (hb : bytes.length = memSize)
    (more : List Byte) (p : Params) :
    load p (header ++ bytes ++ more) = .ok { State.reset with mem := memoryFrom 0 bytes, params := p } := by
  have hpayload : payload (header ++ bytes ++ more) = bytes := by
    rw [payload, List.append_assoc, List.drop_left' hh, List.take_left' hb]
  refine load_eq_ok.2 ⟨?_, by rw [hpayload]⟩
  rw [List.length_append, List.length_append, hh, hb]
  exact Nat.le_add_right imageSize more.length

/-- A load fails in one way, exactly on too short an image (R161). -/
theorem load_eq_error {p : Params} {image : List Byte} {e : LoadError} :
    load p image = .error e ↔ image.length < imageSize := by
  unfold load
  split
  case isTrue hshort => cases e; simp [hshort]
  case isFalse hlong => simp [hlong]

/-- Settles O36: reset is RUNNING with nothing in memory, reported or counted. -/
theorem invariantHoldsAtReset : Obligations.InvariantHoldsAtReset :=
  inv_of_running rfl State.reset_mem_wf (Nat.le_refl 0) (fun _ h => nomatch h) rfl

/-- Settles O37: a payload of zeros lists no address. -/
theorem resetIsLoadOfTheZeroImage : Obligations.ResetIsLoadOfTheZeroImage := by
  have hzeros : (List.replicate memSize unlistedByte).length = memSize := List.length_replicate
  have hload := load_append (header := imageHeader) rfl hzeros [] defaultParams
  rw [List.append_nil, memoryFrom_replicate_zero] at hload
  exact hload

/-- Settles O38: the loaded state is reset's but for memory, which reads the image after its header. -/
theorem loadGivesTheResetValues : Obligations.LoadGivesTheResetValues := by
  intro p image hlen
  have hload := (load_eq_ok (p := p)).2 ⟨hlen, rfl⟩
  have hflags : State.reset.flagN = false ∧ State.reset.flagZ = true := by decide
  refine ⟨_, hload, rfl, rfl, rfl, rfl, rfl, rfl, hflags.1, hflags.2, fun a => ?_⟩
  rw [← memRead_of_load hload a, List.getElem?_drop]
  rfl

/-- Settles O39: `load_eq_error`, and `load_append` loads both images as their payload. -/
theorem loadLooksAtLengthAndPayloadOnly : Obligations.LoadLooksAtLengthAndPayloadOnly := by
  refine ⟨fun p image => load_eq_error, fun p header header' bytes more hh hh' hb => ?_⟩
  rw [load_append hh hb, ← List.append_nil (header' ++ bytes), load_append hh' hb]

/-! ## The dump -/

/-- Rows of `n` values each, laid end to end, are the values in order. -/
theorem flatten_rows {α : Type} (f : Nat → α) (m n : Nat) :
    ((List.range m).map fun r => (List.range n).map fun c => f (n * r + c)).flatten = (List.range (n * m)).map f := by
  induction m with
  | zero => rfl
  | succ m ih =>
    rw [List.range_succ, List.map_append, List.flatten_append, ih, Nat.mul_succ, List.range_add, List.map_append,
      List.map_map]
    exact congrArg _ (List.append_nil _)

/-- Settles O47: the report is made of the state's fields, and `flatten_rows` puts its 16 rows of 16 bytes in order. -/
theorem dumpShowsTheState : Obligations.DumpShowsTheState := by
  refine fun s => ⟨rfl, rfl, rfl, rfl, ?rows, ?row, fun a => ?bytes⟩
  case rows => simp [State.dump]
  case row => simp [State.dump, State.memoryRow]
  case bytes =>
    have hflat : s.dump.memoryRows.flatten = (List.range (16 * 16)).map fun k => s.memRead (BitVec.ofNat 8 k) :=
      flatten_rows (fun k => s.memRead (BitVec.ofNat 8 k)) 16 16
    have ha : a.toNat < 16 * 16 := a.isLt
    rw [hflat, List.getElem?_map, List.getElem?_range ha, Option.map_some, BitVec.ofNat_toNat, BitVec.setWidth_eq]

end Sys2Proof.Machine

/-! PROOFS. The invariant of the machine, kept by every step and every host transaction. -/

namespace Sys2Proof.Machine

/-! ## The step bound -/

theorem boundReached_eq_true_iff (s : State) :
    s.boundReached = true ↔ ∃ k, s.params.maxSteps = some k ∧ k ≤ s.nstep := by
  unfold State.boundReached
  cases s.params.maxSteps <;> simp

/-- A run that is not at its bound has a step left (60_exceptions.md R148). -/
theorem nstep_lt_of_not_boundReached {s : State} (hb : s.boundReached = false) {k : Nat}
    (hk : s.params.maxSteps = some k) : s.nstep < k := by
  by_contra hle
  have hreached := (boundReached_eq_true_iff s).2 ⟨k, hk, Nat.not_lt.1 hle⟩
  rw [hb] at hreached
  cases hreached

/-! ## The event log -/

/-- An instruction reports at most once, and never an unknown opcode (60_exceptions.md R144). -/
theorem exec_ev {i : Instr} {s t : State} (h : exec i s = .next t) :
    s.ev <+: t.ev ∧ t.ev.length ≤ s.ev.length + 1 ∧
      (s.ev.all (fun e => !e.isUnknown) = true → t.ev.all (fun e => !e.isUnknown) = true) := by
  rcases exec_ev_cases h with hev | ⟨a, -, -, hev⟩
  · rw [hev]
    exact ⟨List.prefix_rfl, Nat.le_succ _, id⟩
  · rw [hev]
    refine ⟨List.prefix_append .., by simp, fun hall => ?_⟩
    rw [List.all_append, hall]
    rfl

/-! ## The invariant -/

theorem State.statusExplained_of_running {s : State} (hr : s.rs = .running) :
    s.statusExplained ↔ s.ev.all (fun e => !e.isUnknown) = true := by
  simp only [State.statusExplained, hr]

/-- An instruction of a running, unbounded state keeps the invariant. -/
theorem exec_keeps_inv {s t : State} (hinv : s.inv) (hr : s.rs = .running) (hb : s.boundReached = false)
    {m : Mnemonic} (hm : decodeOpcode s.params.opcodeMap (s.memRead s.pc) = some m) (hw : Memory.wf t.mem) {a : Byte}
    (hexec : exec (instrOf m a) s.countStep = .next t) : t.inv := by
  obtain ⟨-, hev, -, hstatus⟩ := hinv
  have hknown := (State.statusExplained_of_running hr).1 hstatus
  obtain ⟨hnstep, hparams⟩ := exec_nstep_params hexec
  obtain ⟨-, hlen, hall⟩ := exec_ev hexec
  refine ⟨hw, ?reports, fun k hk => ?bound, ?status⟩
  case reports =>
    rw [hnstep]
    exact hlen.trans (Nat.succ_le_succ hev)
  case bound =>
    rw [hnstep]
    exact nstep_lt_of_not_boundReached hb (hparams ▸ hk)
  case status =>
    by_cases hhlt : m = .hlt
    · subst hhlt
      cases hexec
      exact ⟨hknown, hm⟩
    · have hrs : t.rs = .running := by rw [exec_rs hexec, if_neg hhlt, State.countStep_rs, hr]
      exact (State.statusExplained_of_running hrs).2 (hall hknown)

/-- Every step keeps the invariant. -/
theorem step_keeps_inv {s t : State} (hinv : s.inv) (h : step s = .next t) : t.inv := by
  have hw := step_mem_wf hinv.1 h
  obtain ⟨hr, ⟨hb, rfl⟩ | ⟨hb, m, hm, hexec⟩ | ⟨hb, hm, rfl⟩⟩ := step_cases h
  · obtain ⟨-, hev, hbound, hstatus⟩ := hinv
    exact ⟨hw, hev, hbound, (State.statusExplained_of_running hr).1 hstatus, (boundReached_eq_true_iff s).1 hb⟩
  · exact exec_keeps_inv hinv hr hb hm hw hexec
  · obtain ⟨-, hev, -, hstatus⟩ := hinv
    refine ⟨hw, ?_, fun k hk => nstep_lt_of_not_boundReached hb hk,
      hm, s.ev, (State.statusExplained_of_running hr).1 hstatus, rfl⟩
    rw [State.raise_ev, List.length_append]
    exact Nat.succ_le_succ hev

/-- Settles O41: `step_keeps_inv`, by the three things a step can do. -/
theorem everyStepKeepsTheInvariant : Obligations.EveryStepKeepsTheInvariant := fun _ _ => step_keeps_inv

/-! ## The host's transactions -/

/-- A loaded state meets the invariant. -/
theorem inv_of_load {p : Params} {image : List Byte} {s : State} (h : load p image = .ok s) : s.inv := by
  obtain ⟨-, rfl⟩ := load_eq_ok.1 h
  have hlen : 0 + (payload image).length ≤ memSize := by simp [payload]
  exact inv_of_running rfl (memoryFrom_wf 0 _ hlen) (Nat.le_refl 0) (fun k _ => Nat.zero_le k) rfl

/-- A bound set before the run keeps the invariant: no step is counted yet. -/
theorem State.boundBeforeRun_inv {s : State} (hinv : s.inv) (k : Option Nat) : (s.boundBeforeRun k).inv := by
  rcases s.boundBeforeRun_cases k with ⟨hr, hn, h⟩ | ⟨-, h⟩
  · obtain ⟨hw, hev, -, hstatus⟩ := hinv
    have hbound : (s.setMaxSteps k).withinBound := fun k' _ => by
      rw [State.setMaxSteps_nstep, hn]
      exact Nat.zero_le k'
    rw [h]
    exact inv_of_running hr hw hev hbound ((State.statusExplained_of_running hr).1 hstatus)
  · rw [h]
    exact hinv

/-- A step is turned away exactly where there is no running CPU state. -/
theorem Block.step_eq_none {b : Block} : b.step = none ↔ ∀ s, b.cpu = some s → s.rs ≠ .running := by
  constructor
  · intro h s hs hr
    obtain ⟨t, ht⟩ := step_answers_next hr
    have hsome := Block.step_eq_some.2 ⟨s, t, hs, ht, rfl⟩
    rw [h] at hsome
    cases hsome
  · intro h
    rw [Option.eq_none_iff_forall_ne_some]
    intro b' hb'
    obtain ⟨s, t, hs, ht, -⟩ := Block.step_eq_some.1 hb'
    exact h s hs (step_cases ht).1

theorem Block.act_eq_none {b : Block} {x : HostAction} :
    b.act x = none ↔ x = .step ∧ ∀ s, b.cpu = some s → s.rs ≠ .running := by
  cases x
  case step => exact Block.step_eq_none.trans (and_iff_right rfl).symm
  all_goals exact iff_of_false (fun h => nomatch h) (fun h => nomatch h.1)

/-- Every transaction keeps the invariant of the CPU state. -/
theorem Block.act_keeps_inv {b b' : Block} {x : HostAction} (h : b.act x = some b')
    (hinv : ∀ s, b.cpu = some s → s.inv) : ∀ s, b'.cpu = some s → s.inv := by
  intro s hs
  cases x with
  | setMaxSteps k =>
    cases h
    obtain ⟨s₀, hs₀, rfl⟩ := Option.map_eq_some_iff.1 hs
    exact State.boundBeforeRun_inv (hinv s₀ hs₀) k
  | load image =>
    cases h
    rcases b.load_cases image with ⟨t, ht, hb⟩ | ⟨e, -, hb⟩
    · rw [hb] at hs
      cases hs
      exact inv_of_load ht
    · rw [hb] at hs
      cases hs
  | step =>
    obtain ⟨s₀, t, hs₀, ht, rfl⟩ := Block.step_eq_some.1 h
    cases hs
    exact step_keeps_inv (hinv s₀ hs₀) ht

/-- A load of a short image leaves no state, and a load of a longer one the loaded state (R161, R162, R164). -/
theorem Block.load_effect (b : Block) (image : List Byte) :
    (b.load image).params = b.params ∧
    (image.length < 260 → (b.load image).cpu = none ∧ (b.load image).loadError = some .imageTooSmall) ∧
    (260 ≤ image.length →
      (b.load image).loadError = none ∧ ∃ s, (b.load image).cpu = some s ∧ Machine.load b.params image = .ok s) := by
  rcases b.load_cases image with ⟨s, hs, hb⟩ | ⟨e, he, hb⟩ <;> rw [hb]
  · exact ⟨rfl, fun hshort => absurd hshort (Nat.not_lt.2 (load_eq_ok.1 hs).1), fun _ => ⟨rfl, s, rfl, hs⟩⟩
  · exact ⟨rfl, fun _ => ⟨rfl, congrArg some (by cases e; rfl)⟩,
      fun hlong => absurd (load_eq_error.1 he) (Nat.not_lt.2 hlong)⟩

/-- MAX_STEPS reaches a loaded state as long as its run has not begun. -/
theorem Block.setMaxSteps_effect {b : Block} {s : State} (hs : b.cpu = some s) (k : Option Nat) :
    (s.rs = .running → s.nstep = 0 → (b.setMaxSteps k).cpu = some (s.setMaxSteps k)) ∧
    (s.rs ≠ .running ∨ s.nstep ≠ 0 → (b.setMaxSteps k).cpu = some s) := by
  rw [Block.setMaxSteps_cpu, hs, Option.map_some]
  rcases s.boundBeforeRun_cases k with ⟨hr, hn, h⟩ | ⟨hbegun, h⟩ <;> rw [h]
  · exact ⟨fun _ _ => rfl, fun hbegun => hbegun.elim (absurd hr) (absurd hn)⟩
  · exact ⟨fun hr hn => absurd ⟨hr, hn⟩ hbegun, fun _ => rfl⟩

/-- Settles O42: each transaction is a load, a step of the core or the setting of the bound, with the effects above. -/
theorem everyTransactionKeepsTheInvariant : Obligations.EveryTransactionKeepsTheInvariant := by
  refine ⟨fun b x => Block.act_eq_none, fun b b' x h => ⟨Block.act_keeps_inv h, ?load, ?step, ?setMaxSteps⟩⟩
  case load =>
    rintro image rfl
    cases h
    exact Block.load_effect b image
  case step =>
    rintro rfl
    obtain ⟨s, t, hs, ht, rfl⟩ := Block.step_eq_some.1 h
    exact ⟨rfl, rfl, s, t, hs, ht, rfl⟩
  case setMaxSteps =>
    rintro k rfl
    cases h
    refine ⟨rfl, rfl, fun hnone => ?_, fun s hs => Block.setMaxSteps_effect hs k⟩
    rw [Block.setMaxSteps_cpu, hnone, Option.map_none]

end Sys2Proof.Machine

/-! PROOFS. Runs: what holds after any number of steps (60_exceptions.md R146, R148). -/

namespace Sys2Proof.Machine

/-! ## One step's part -/

/-- A step changes no parameter and only adds to EV (10_state.md R29). -/
theorem step_params_ev {s t : State} (h : step s = .next t) : t.params = s.params ∧ s.ev <+: t.ev := by
  obtain ⟨-, ⟨-, rfl⟩ | ⟨-, m, -, hexec⟩ | ⟨-, -, rfl⟩⟩ := step_cases h
  · exact ⟨rfl, List.prefix_rfl⟩
  · obtain ⟨hev, -⟩ := exec_ev hexec
    exact ⟨(exec_nstep_params hexec).2, hev⟩
  · exact ⟨rfl, List.prefix_append ..⟩

/-- Every step but the one the bound stops is counted (10_state.md R30). -/
theorem step_nstep {s t : State} (hb : s.boundReached = false) (h : step s = .next t) : t.nstep = s.nstep + 1 := by
  obtain ⟨-, ⟨hb', -⟩ | ⟨-, m, -, hexec⟩ | ⟨-, -, rfl⟩⟩ := step_cases h
  · rw [hb] at hb'
    cases hb'
  · exact (exec_nstep_params hexec).1
  · rfl

/-- A step after which the run goes on was not stopped by the bound. -/
theorem not_boundReached_of_step_running {s t : State} (h : step s = .next t) (hr : t.rs = .running) :
    s.boundReached = false := by
  rw [step_rs h] at hr
  by_contra hb
  rw [Bool.eq_true_of_not_eq_false hb] at hr
  cases hr

/-! ## Runs -/

/-- A run of `n + k` steps goes on from where `n` steps end. -/
theorem runFor_add (n k : Nat) (s : State) : runFor (n + k) s = runFor k (runFor n s) := by
  induction n, s using run_induction with
  | zero s => rw [Nat.zero_add]; rfl
  | ended n s hr => rw [runFor_of_not_running hr, runFor_of_not_running hr, runFor_of_not_running hr]
  | step n s t hr ht ih => rw [Nat.succ_add, runFor_of_step ht, runFor_of_step ht, ih]

/-- A run that is still RUNNING began so. -/
theorem running_of_runFor_running {n : Nat} {s : State} (h : (runFor n s).rs = .running) : s.rs = .running := by
  by_contra hr
  rw [runFor_of_not_running hr] at h
  exact hr h

theorem runFor_params_ev (n : Nat) (s : State) : (runFor n s).params = s.params ∧ s.ev <+: (runFor n s).ev := by
  induction n, s using run_induction with
  | zero s => exact ⟨rfl, List.prefix_rfl⟩
  | ended n s hr => rw [runFor_of_not_running hr]; exact ⟨rfl, List.prefix_rfl⟩
  | step n s t hr ht ih =>
    obtain ⟨hparams, hev⟩ := ih
    obtain ⟨hparams', hev'⟩ := step_params_ev ht
    rw [runFor_of_step ht]
    exact ⟨hparams.trans hparams', hev'.trans hev⟩

/-- Settles O43: `runFor_params_ev`, and an ended run stays. -/
theorem runAppendsEventsAndKeepsParameters : Obligations.RunAppendsEventsAndKeepsParameters := by
  intro n s
  obtain ⟨hparams, hev⟩ := runFor_params_ev n s
  exact ⟨hev, hparams, fun hr k => (runFor_add n k s).trans (runFor_of_not_running hr k)⟩

/-- Settles O44, by induction along the run: none of its steps was stopped by the bound. -/
theorem runningCountsEveryStep : Obligations.RunningCountsEveryStep := by
  intro n s h
  induction n, s using run_induction with
  | zero s => rfl
  | ended n s hr => exact absurd (running_of_runFor_running h) hr
  | step n s t hr ht ih =>
    rw [runFor_of_step ht] at h ⊢
    have hb := not_boundReached_of_step_running ht (running_of_runFor_running h)
    rw [ih h, step_nstep hb ht]
    omega

/-! ## The step bound -/

/-- Before the last of the steps of a run still RUNNING, the bound was not reached. -/
theorem nstep_add_lt_of_running {n k : Nat} {s : State} (hk : s.params.maxSteps = some k)
    (h : (runFor (n + 1) s).rs = .running) : s.nstep + n < k := by
  rw [runFor_add] at h
  have hr := running_of_runFor_running h
  obtain ⟨t, ht⟩ := step_answers_next hr
  rw [← Nat.zero_add 1, runFor_of_step ht] at h
  rw [← runningCountsEveryStep n s hr]
  exact nstep_lt_of_not_boundReached (not_boundReached_of_step_running ht h) ((runFor_params_ev n s).1 ▸ hk)

/-- The opcode fetches among accesses. -/
def opcodeFetches (xs : List Access) : Nat := xs.countP (fun x => x.kind == .opcodeFetch)

theorem opcodeFetches_append (xs ys : List Access) :
    opcodeFetches (xs ++ ys) = opcodeFetches xs + opcodeFetches ys := List.countP_append

theorem opcodeFetches_dataAccess (s : State) (a : Byte) (m : Mnemonic) : opcodeFetches (dataAccess s a m) = 0 := by
  cases m <;> rfl

/-- A step fetches one opcode byte (20_memory.md R41). -/
theorem opcodeFetches_instrAccesses (s : State) : opcodeFetches (instrAccesses s) = 1 := by
  cases hm : decodeOpcode s.params.opcodeMap (s.memRead s.pc) with
  | none => rw [instrAccesses_of_unknown hm]; rfl
  | some m =>
    cases hf : formatOf m with
    | f0 => rw [instrAccesses_of_f0 hm hf]; rfl
    | f1 => rw [instrAccesses_of_f1 hm hf, opcodeFetches_append, opcodeFetches_dataAccess]; rfl

/-- A bounded run fetches no more opcode bytes than it has steps left. -/
theorem opcodeFetches_runAccesses_le {k : Nat} (n : Nat) {s : State} (hk : s.params.maxSteps = some k) :
    opcodeFetches (runAccesses n s) ≤ k - s.nstep := by
  induction n, s using run_induction with
  | zero s => exact Nat.zero_le _
  | ended n s hr => rw [runAccesses_of_not_running hr]; exact Nat.zero_le _
  | step n s t hr ht ih =>
    rw [runAccesses_of_step ht, opcodeFetches_append]
    cases hb : s.boundReached with
    | true =>
      rw [step_at_bound hr hb] at ht
      cases ht
      rw [stepAccesses_of_boundReached hb, runAccesses_of_not_running (s := s.stop .stepLimit) (by simp)]
      exact Nat.zero_le _
    | false =>
      have hrest := ih ((step_params_ev ht).1 ▸ hk)
      have hlt := nstep_lt_of_not_boundReached hb hk
      rw [step_nstep hb ht] at hrest
      rw [stepAccesses_of_fetch hr hb, opcodeFetches_instrAccesses]
      omega

/-- Settles O45: `nstep_add_lt_of_running` and `opcodeFetches_runAccesses_le`. -/
theorem boundedRunEnds : Obligations.BoundedRunEnds := by
  refine fun k n s hk => ⟨fun hn hlt hr => ?_, opcodeFetches_runAccesses_le n hk⟩
  obtain ⟨n, rfl⟩ := Nat.exists_eq_add_one_of_ne_zero hn.ne'
  have := nstep_add_lt_of_running hk hr
  omega

/-! ## A memory of zeros -/

theorem addrAdd_addrAdd (a : Byte) (n k : Nat) : addrAdd (addrAdd a n) k = addrAdd a (n + k) := by
  apply BitVec.eq_of_toNat_eq
  simp only [addrAdd_toNat]
  omega

/-- A step at NOP. -/
theorem step_at_nop {s : State} (hr : s.rs = .running) (hb : s.boundReached = false)
    (hwf : Instr.wf s.params.opcodeMap .nop) (h : s.memRead s.pc = s.params.opcodeMap.nop) :
    step s = .next (s.countStep.advance 1) :=
  (step_of_holdsAt_encode hr hb hwf (holdsAt_one.2 h)).trans (exec_nop s.countStep)

/-- Settles O46, by induction on the number of steps: each finds NOP at PC. -/
theorem zeroMemoryNeverHalts : Obligations.ZeroMemoryNeverHalts := by
  intro n
  induction n with
  | zero => intro s _ _ _ _ _; exact congrArg s.setPc (addrAdd_zero s.pc).symm
  | succ n ih =>
    intro s hr hmax hnop hwf hzero
    have hstep := step_at_nop hr (boundReached_eq_false_of_maxSteps_none hmax) hwf ((hzero s.pc).trans hnop.symm)
    rw [runFor_of_step hstep, ih (s.countStep.advance 1) hr hmax hnop hwf hzero]
    have hpc : addrAdd (addrAdd s.pc 1) n = addrAdd s.pc (n + 1) := by rw [addrAdd_addrAdd, Nat.add_comm]
    have hnstep : s.nstep + 1 + n = s.nstep + (n + 1) := by omega
    change ({ s with pc := addrAdd (addrAdd s.pc 1) n, nstep := s.nstep + 1 + n } : State) = _
    rw [hpc, hnstep]
    rfl

end Sys2Proof.Machine

/-! PROOFS. The assembler of 30_encoding.md section 6: what its two passes lay out, and what it emits. -/

namespace Sys2Proof.Machine

/-! ## What a line can do -/

/-- A data line adds one symbol with a new name, at the next data address (R83, R87, R93). -/
theorem dataLine_eq_ok {data data' : List DataSymbol} {l : SourceLine} (h : dataLine data l = .ok data') :
    ∃ name v, name ∉ data.map DataSymbol.name ∧ dataBase + data.length < memSize ∧
      data' = data ++ [⟨name, dataBase + data.length, v⟩] := by
  unfold dataLine at h
  split at h
  case h_1 name db value _ =>
    split at h
    case isTrue =>
      split at h
      case h_1 => cases h
      case h_2 v _ =>
        split at h
        case isTrue => cases h
        case isFalse hfresh =>
          split at h
          case isTrue hroom =>
            cases h
            exact ⟨name, v, by simpa using hfresh, hroom, rfl⟩
          case isFalse => cases h
    case isFalse => cases h
  case h_2 => cases h

/-- A directive leaves the data symbols (R82, R86). -/
theorem directiveLine_data {st st' : Pass1} {t : Token} {l : SourceLine} (h : directiveLine st t l = .ok st') :
    st'.data = st.data := by
  unfold directiveLine at h
  split at h
  case isTrue => cases h; rfl
  case isFalse =>
    split at h
    case isTrue => cases h; rfl
    case isFalse =>
      split at h
      case isTrue => cases h; rfl
      case isFalse => cases h

/-- A line of pass 1 leaves the data symbols, or is a data line (R80, R82). -/
theorem pass1Line_data {st st' : Pass1} {l : SourceLine} (h : pass1Line st l = .ok st') :
    st'.data = st.data ∨ dataLine st.data l = .ok st'.data := by
  unfold pass1Line at h
  split at h
  case h_1 => cases h; exact .inl rfl
  case h_2 t _ _ =>
    split at h
    case isTrue => exact .inl (directiveLine_data h)
    case isFalse =>
      split at h
      case h_1 => cases h
      case h_2 =>
        cases hd : dataLine st.data l with
        | error e => rw [hd] at h; cases h
        | ok data => rw [hd] at h; cases h; exact .inr rfl
      case h_3 => cases h; exact .inl rfl

/-- What an instruction's line needs to be laid out, and does: its bytes stay below 0x100 and fall on no taken address
(R86, R92, R93). -/
theorem placeInstr_eq_ok {data : List DataSymbol} {st st' : Pass2} {p : PlacedInstr}
    (h : placeInstr data st p = .ok st') :
    p.addr + p.size ≤ memSize ∧ (∀ a ∈ p.addrs, a ∉ usedAddrs data st.code) ∧ st'.labels = st.labels ∧
      st'.code = st.code ++ [p] := by
  unfold placeInstr at h
  split at h
  case isTrue => cases h
  case isFalse hroom =>
    split at h
    case isTrue => cases h
    case isFalse hfree =>
      cases h
      exact ⟨Nat.not_lt.1 hroom, by simpa using hfree, rfl, rfl⟩

theorem orgLine_eq_ok {st st' : Pass2} {l : SourceLine} {rest : List Token} (h : orgLine st l rest = .ok st') :
    st'.labels = st.labels ∧ st'.code = st.code := by
  unfold orgLine at h
  split at h
  case h_1 v =>
    cases hv : literal v with
    | none => rw [hv] at h; cases h
    | some a => rw [hv] at h; cases h; exact ⟨rfl, rfl⟩
  case h_2 => cases h

/-- A label's line adds one label with a new name (R86, R87). -/
theorem labelLine_eq_ok {data : List DataSymbol} {st st' : Pass2} {name : Token} {l : SourceLine} {rest : List Token}
    (h : labelLine data st name l rest = .ok st') :
    ∃ b : Label, b.name ∉ data.map DataSymbol.name ++ st.labels.map Label.name ∧ st'.labels = st.labels ++ [b] ∧
      st'.code = st.code := by
  unfold labelLine at h
  split at h
  case h_1 =>
    split at h
    case isTrue => cases h
    case isFalse =>
      split at h
      case isTrue => cases h
      case isFalse hfresh =>
        cases h
        exact ⟨⟨name, st.cursor⟩, by simpa using hfresh, rfl, rfl⟩
  case h_2 => cases h

/-- An instruction's line places one instruction, with an operand name only in format F1 (R85, R91). -/
theorem instrLine_eq_ok {data : List DataSymbol} {st st' : Pass2} {t : Token} {l : SourceLine} {rest : List Token}
    (h : instrLine data st t l rest = .ok st') :
    ∃ p, (p.operand ≠ none → formatOf p.mnemonic = .f1) ∧ placeInstr data st p = .ok st' := by
  unfold instrLine at h
  split at h
  case h_1 => cases h
  case h_2 m _ =>
    split at h
    case h_1 => exact ⟨_, fun hne => absurd rfl hne, h⟩
    case h_2 hf => exact ⟨_, fun _ => hf, h⟩
    case h_3 => cases h
    case h_4 => cases h

/-- The three things a line of pass 2 can do to the layout: nothing, a label with a new name, or an instruction placed
(R85, R86). -/
theorem pass2Line_cases {data : List DataSymbol} {st st' : Pass2} {l : SourceLine}
    (h : pass2Line data st l = .ok st') :
    (st'.labels = st.labels ∧ st'.code = st.code) ∨
    (∃ b : Label, b.name ∉ data.map DataSymbol.name ++ st.labels.map Label.name ∧
      st'.labels = st.labels ++ [b] ∧ st'.code = st.code) ∨
    (∃ p, (p.operand ≠ none → formatOf p.mnemonic = .f1) ∧ placeInstr data st p = .ok st') := by
  unfold pass2Line at h
  split at h
  case h_1 => cases h; exact .inl ⟨rfl, rfl⟩
  case h_2 =>
    split at h
    case isTrue => exact .inl (orgLine_eq_ok h)
    case isFalse =>
      split at h
      case isTrue => exact .inr (.inl (labelLine_eq_ok h))
      case isFalse => exact .inr (.inr (instrLine_eq_ok h))

/-! ## What a layout promises -/

/-- What every line that answers keeps, a pass over the lines keeps. -/
theorem overLines_keeps {σ : Type} {f : σ → SourceLine → Except AsmError σ} {P : σ → Prop}
    (hf : ∀ st l st', f st l = .ok st' → P st → P st') {ls : List SourceLine} {st st' : σ}
    (h : overLines f st ls = .ok st') (hst : P st) : P st' := by
  induction ls generalizing st with
  | nil => cases h; exact hst
  | cons l ls ih =>
    cases hl : f st l with
    | error e => rw [overLines, hl] at h; cases h
    | ok st₁ =>
      rw [overLines, hl] at h
      exact ih h (hf st l st₁ hl hst)

/-- Pass 1's promise: data symbols have different names, and stand at DATA_BASE on in order (R83, R87, R93). -/
structure DataPlaced (data : List DataSymbol) : Prop where
  names : (data.map DataSymbol.name).Nodup
  addrs : data.map DataSymbol.addr = List.range' dataBase data.length
  room : dataBase + data.length ≤ memSize

theorem DataPlaced.nil : DataPlaced [] := ⟨List.nodup_nil, rfl, by decide⟩

theorem DataPlaced.dataLine {data data' : List DataSymbol} {l : SourceLine} (hd : DataPlaced data)
    (h : Machine.dataLine data l = .ok data') : DataPlaced data' := by
  obtain ⟨name, v, hfresh, hroom, rfl⟩ := dataLine_eq_ok h
  refine ⟨?names, ?addrs, ?room⟩
  case names =>
    rw [List.map_append, List.nodup_append_comm]
    exact List.nodup_cons.2 ⟨hfresh, hd.names⟩
  case addrs =>
    rw [List.map_append, hd.addrs, List.length_append, List.length_singleton, List.range'_concat, Nat.one_mul]
    rfl
  case room =>
    rw [List.length_append]
    exact hroom

/-- Pass 2's promise: names and taken addresses are all different, the addresses below 0x100, and operands in F1
instructions only (R87, R91, R92, R93). -/
structure CodePlaced (data : List DataSymbol) (labels : List Label) (code : List PlacedInstr) : Prop where
  names : (data.map DataSymbol.name ++ labels.map Label.name).Nodup
  addrs : (usedAddrs data code).Nodup
  below : ∀ a ∈ usedAddrs data code, a < memSize
  operands : ∀ p ∈ code, p.operand ≠ none → formatOf p.mnemonic = .f1

theorem usedAddrs_append (data : List DataSymbol) (code : List PlacedInstr) (p : PlacedInstr) :
    usedAddrs data (code ++ [p]) = usedAddrs data code ++ p.addrs := by
  simp [usedAddrs]

theorem DataPlaced.codePlaced {data : List DataSymbol} (hd : DataPlaced data) : CodePlaced data [] [] := by
  have hused : usedAddrs data [] = List.range' dataBase data.length := by simp [usedAddrs, hd.addrs]
  refine ⟨by simpa using hd.names, ?addrs, ?below, fun _ hp => nomatch hp⟩
  case addrs =>
    rw [hused]
    exact List.nodup_range'
  case below =>
    rw [hused]
    intro a ha
    have := List.mem_range'_1.1 ha
    have := hd.room
    omega

/-- A label with a new name keeps the promise. -/
theorem CodePlaced.label {data : List DataSymbol} {labels : List Label} {code : List PlacedInstr}
    (hc : CodePlaced data labels code) {b : Label}
    (hfresh : b.name ∉ data.map DataSymbol.name ++ labels.map Label.name) : CodePlaced data (labels ++ [b]) code := by
  refine ⟨?_, hc.addrs, hc.below, hc.operands⟩
  rw [List.map_append, ← List.append_assoc, List.nodup_append_comm]
  exact List.nodup_cons.2 ⟨hfresh, hc.names⟩

/-- An instruction on free addresses below 0x100 keeps the promise. -/
theorem CodePlaced.instr {data : List DataSymbol} {labels : List Label} {code : List PlacedInstr}
    (hc : CodePlaced data labels code) {p : PlacedInstr} (hroom : p.addr + p.size ≤ memSize)
    (hfree : ∀ a ∈ p.addrs, a ∉ usedAddrs data code) (hop : p.operand ≠ none → formatOf p.mnemonic = .f1) :
    CodePlaced data labels (code ++ [p]) := by
  refine ⟨hc.names, ?addrs, ?below, ?operands⟩
  case addrs =>
    rw [usedAddrs_append]
    exact List.Nodup.append hc.addrs List.nodup_range' fun a ha hp => hfree a hp ha
  case below =>
    rw [usedAddrs_append]
    intro a ha
    rcases List.mem_append.1 ha with ha | ha
    · exact hc.below a ha
    · have := List.mem_range'_1.1 ha
      omega
  case operands =>
    intro q hq
    rcases List.mem_append.1 hq with hq | hq
    · exact hc.operands q hq
    · exact List.mem_singleton.1 hq ▸ hop

theorem CodePlaced.pass2Line {data : List DataSymbol} {st st' : Pass2} {l : SourceLine}
    (h : Machine.pass2Line data st l = .ok st') (hc : CodePlaced data st.labels st.code) :
    CodePlaced data st'.labels st'.code := by
  rcases pass2Line_cases h with ⟨hl, hcode⟩ | ⟨b, hfresh, hl, hcode⟩ | ⟨p, hop, hp⟩
  · rw [hl, hcode]
    exact hc
  · rw [hl, hcode]
    exact hc.label hfresh
  · obtain ⟨hroom, hfree, hl, hcode⟩ := placeInstr_eq_ok hp
    rw [hl, hcode]
    exact hc.instr hroom hfree hop

/-- A layout keeps both promises. -/
theorem placed_of_layout {text : List Char} {L : Layout} (h : layout text = .ok L) :
    DataPlaced L.data ∧ CodePlaced L.data L.labels L.code := by
  unfold layout at h
  split at h
  case h_1 => cases h
  case h_2 p1 h1 =>
    split at h
    case h_1 => cases h
    case h_2 p2 h2 =>
      cases h
      have hdata : DataPlaced p1.data := by
        refine overLines_keeps (P := fun st => DataPlaced st.data) (fun st l st' hl hd => ?_) h1 DataPlaced.nil
        rcases pass1Line_data hl with heq | hline
        · rw [heq]
          exact hd
        · exact hd.dataLine hline
      exact ⟨hdata, overLines_keeps (P := fun st => CodePlaced p1.data st.labels st.code)
        (fun _ _ _ => CodePlaced.pass2Line) h2 hdata.codePlaced⟩

/-- The k-th data symbol's address (R83). -/
theorem DataPlaced.addr_eq {data : List DataSymbol} (hd : DataPlaced data) {k : Nat} {d : DataSymbol}
    (h : data[k]? = some d) : d.addr = dataBase + k := by
  have haddr : (data.map DataSymbol.addr)[k]? = some d.addr := by rw [List.getElem?_map, h, Option.map_some]
  obtain ⟨hk, -⟩ := List.getElem?_eq_some_iff.1 h
  rw [hd.addrs, List.getElem?_range' hk, Nat.one_mul] at haddr
  exact (Option.some.inj haddr).symm

/-- Settles O49: both passes keep their promises line by line. -/
theorem layoutHasNoClash : Obligations.LayoutHasNoClash := by
  intro text L h
  obtain ⟨hdata, hcode⟩ := placed_of_layout h
  exact ⟨hcode.names, fun k d hd => hdata.addr_eq hd, hcode.addrs, hcode.below⟩

end Sys2Proof.Machine

/-! PROOFS. The image of 30_encoding.md R88: the emitted memory is the layout, and an unresolved name emits none. -/

namespace Sys2Proof.Machine

/-! ## Writing bytes, data and code -/

theorem getElem?_writeBytes_of_not_mem {bs : List Byte} {a j : Nat} (hj : j ∉ List.range' a bs.length)
    (mem : List Byte) : (writeBytes mem a bs)[j]? = mem[j]? := by
  induction bs generalizing mem a with
  | nil => rfl
  | cons b bs ih =>
    rw [List.length_cons, List.range'_succ, List.mem_cons, not_or] at hj
    rw [writeBytes, ih hj.2, List.getElem?_set_ne (Ne.symm hj.1)]

theorem getElem?_writeBytes {bs : List Byte} {k : Nat} {b : Byte} (hk : bs[k]? = some b) {mem : List Byte} {a : Nat}
    (hlen : a + k < mem.length) : (writeBytes mem a bs)[a + k]? = some b := by
  induction bs generalizing mem a k with
  | nil => cases hk
  | cons c bs ih =>
    cases k with
    | zero =>
      obtain rfl : c = b := Option.some.inj hk
      have ha : a ∉ List.range' (a + 1) bs.length := fun h => absurd (List.mem_range'_1.1 h).1 (Nat.not_succ_le_self a)
      rw [Nat.add_zero] at hlen ⊢
      rw [writeBytes, getElem?_writeBytes_of_not_mem ha, List.getElem?_set_self hlen]
    | succ k =>
      rw [← Nat.add_assoc, Nat.add_right_comm] at hlen ⊢
      exact ih hk (by rwa [List.length_set])

theorem getElem?_emitData_of_not_mem {ds : List DataSymbol} {j : Nat} (hj : j ∉ ds.map DataSymbol.addr)
    (mem : List Byte) : (emitData mem ds)[j]? = mem[j]? := by
  induction ds generalizing mem with
  | nil => rfl
  | cons d ds ih =>
    rw [List.map_cons, List.mem_cons, not_or] at hj
    rw [emitData, ih hj.2, List.getElem?_set_ne (Ne.symm hj.1)]

/-- A data symbol's value stands at its address, where no two share one. -/
theorem getElem?_emitData {ds : List DataSymbol} (hnodup : (ds.map DataSymbol.addr).Nodup) {d : DataSymbol}
    (hd : d ∈ ds) {mem : List Byte} (hlen : d.addr < mem.length) : (emitData mem ds)[d.addr]? = some d.value := by
  induction ds generalizing mem with
  | nil => cases hd
  | cons c ds ih =>
    obtain ⟨hc, hnodup⟩ := List.nodup_cons.1 hnodup
    rw [emitData]
    rcases List.mem_cons.1 hd with rfl | hd
    · rw [getElem?_emitData_of_not_mem hc, List.getElem?_set_self hlen]
    · exact ih hnodup hd (by rwa [List.length_set])

/-- A resolved instruction has the line's mnemonic, and for an operand name the address it resolves to (R89). -/
theorem resolveInstr_eq_ok {L : Layout} {p : PlacedInstr} {i : Instr} (h : resolveInstr L p = .ok i) :
    i.mnemonic = p.mnemonic ∧ ∀ name, p.operand = some name →
      ∃ a, resolve L name = some a ∧ i = instrOf p.mnemonic (BitVec.ofNat 8 a) := by
  unfold resolveInstr at h
  split at h
  case h_1 hnone =>
    cases h
    exact ⟨instrOf_mnemonic .., fun name hname => by rw [hnone] at hname; cases hname⟩
  case h_2 name hsome =>
    split at h
    case h_1 => cases h
    case h_2 a ha =>
      cases h
      refine ⟨instrOf_mnemonic .., fun name' hname => ?_⟩
      obtain rfl : name = name' := Option.some.inj (hsome.symm.trans hname)
      exact ⟨a, ha, rfl⟩

theorem encode_length (map : OpcodeMap) (i : Instr) : (encode map i).length = (formatOf i.mnemonic).length := by
  cases i <;> rfl

/-- The addresses of a placed instruction are those of its encoding's bytes. -/
theorem addrs_of_resolveInstr {L : Layout} {p : PlacedInstr} {i : Instr} (h : resolveInstr L p = .ok i)
    (map : OpcodeMap) : p.addrs = List.range' p.addr (encode map i).length := by
  rw [encode_length, (resolveInstr_eq_ok h).1]
  rfl

theorem addr_add_mem_addrs {map : OpcodeMap} {L : Layout} {p : PlacedInstr} {i : Instr}
    (h : resolveInstr L p = .ok i) {k : Nat} {b : Byte} (hk : (encode map i)[k]? = some b) :
    p.addr + k ∈ p.addrs := by
  obtain ⟨hlen, -⟩ := List.getElem?_eq_some_iff.1 hk
  rw [addrs_of_resolveInstr h map]
  exact List.mem_range'_1.2 ⟨Nat.le_add_right .., Nat.add_lt_add_left hlen _⟩

/-- Emitting an instruction and then the rest. -/
theorem emitCode_cons_eq_ok {map : OpcodeMap} {L : Layout} {mem mem' : List Byte} {p : PlacedInstr}
    {ps : List PlacedInstr} (h : emitCode map L mem (p :: ps) = .ok mem') :
    ∃ i, resolveInstr L p = .ok i ∧ emitCode map L (writeBytes mem p.addr (encode map i)) ps = .ok mem' := by
  cases hi : resolveInstr L p with
  | error e => rw [emitCode, hi] at h; cases h
  | ok i => exact ⟨i, rfl, by rwa [emitCode, hi] at h⟩

theorem getElem?_emitCode_of_not_mem {map : OpcodeMap} {L : Layout} {mem mem' : List Byte} {ps : List PlacedInstr}
    (h : emitCode map L mem ps = .ok mem') {j : Nat} (hj : j ∉ ps.flatMap PlacedInstr.addrs) : mem'[j]? = mem[j]? := by
  induction ps generalizing mem with
  | nil => cases h; rfl
  | cons p ps ih =>
    obtain ⟨i, hi, hrest⟩ := emitCode_cons_eq_ok h
    rw [List.flatMap_cons, List.mem_append, not_or, addrs_of_resolveInstr hi map] at hj
    rw [ih hrest hj.2, getElem?_writeBytes_of_not_mem hj.1]

/-- An instruction's encoding stands at its address, where no two share a byte. -/
theorem getElem?_emitCode {map : OpcodeMap} {L : Layout} {mem mem' : List Byte} {ps : List PlacedInstr}
    (h : emitCode map L mem ps = .ok mem') (hnodup : (ps.flatMap PlacedInstr.addrs).Nodup) {q : PlacedInstr}
    (hq : q ∈ ps) : ∃ i, resolveInstr L q = .ok i ∧ ∀ k b, (encode map i)[k]? = some b →
      q.addr + k < mem.length → mem'[q.addr + k]? = some b := by
  induction ps generalizing mem with
  | nil => cases hq
  | cons p ps ih =>
    obtain ⟨i, hi, hrest⟩ := emitCode_cons_eq_ok h
    rw [List.flatMap_cons] at hnodup
    obtain ⟨-, hnodup, hdisjoint⟩ := List.nodup_append'.1 hnodup
    rcases List.mem_cons.1 hq with rfl | hq
    · refine ⟨i, hi, fun k b hk hlen => ?_⟩
      rw [getElem?_emitCode_of_not_mem hrest (hdisjoint (addr_add_mem_addrs hi hk)), getElem?_writeBytes hk hlen]
    · obtain ⟨i', hi', hbytes⟩ := ih hrest hnodup hq
      exact ⟨i', hi', fun k b hk hlen => hbytes k b hk (by rwa [length_writeBytes])⟩

/-! ## The memory loaded from an image -/

/-- The memory before the code is written: the data, and zeros (R88). -/
def dataMemory (L : Layout) : List Byte := emitData (List.replicate memSize 0x00) L.data

theorem length_dataMemory (L : Layout) : (dataMemory L).length = memSize := by simp [dataMemory]

/-- A state loaded from an assembled image reads the emitted memory. -/
theorem exists_emitCode_of_load {p : Params} {text : List Char} {image : List Byte} {L : Layout} {s : State}
    (hL : layout text = .ok L) (himage : assemble p.opcodeMap text = .ok image) (hload : load p image = .ok s) :
    ∃ mem, emitCode p.opcodeMap L (dataMemory L) L.code = .ok mem ∧
      ∀ (a : Byte) (b : Byte), mem[a.toNat]? = some b → s.memRead a = b := by
  obtain ⟨L', hL', hemit⟩ := exists_layout_of_assemble himage
  obtain rfl : L = L' := Except.ok.inj (hL.symm.trans hL')
  obtain ⟨mem, hcode, rfl⟩ := exists_emitCode_of_emit hemit
  refine ⟨mem, hcode, fun a b hb => ?_⟩
  have hread := memRead_of_load hload a
  rw [List.drop_left' (show imageHeader.length = headerSize from rfl), hb] at hread
  exact (Option.some.inj hread).symm

theorem addr_mem_usedAddrs {data : List DataSymbol} {d : DataSymbol} (hd : d ∈ data) (code : List PlacedInstr) :
    d.addr ∈ usedAddrs data code := List.mem_append_left _ (List.mem_map_of_mem hd)

theorem addrs_subset_usedAddrs {code : List PlacedInstr} {q : PlacedInstr} (hq : q ∈ code) (data : List DataSymbol) :
    q.addrs ⊆ usedAddrs data code :=
  fun _ ha => List.mem_append_right _ (List.mem_flatMap.2 ⟨q, hq, ha⟩)

theorem ofNat_toNat_of_lt {n : Nat} (h : n < memSize) : (BitVec.ofNat 8 n).toNat = n := Nat.mod_eq_of_lt h

/-- Settles O50: each instruction and data symbol is emitted at its address, and no other emission falls on it. -/
theorem assembledMemoryIsTheLayout : Obligations.AssembledMemoryIsTheLayout := by
  intro p text image L s hL himage hload
  obtain ⟨mem, hcode, hread⟩ := exists_emitCode_of_load hL himage hload
  obtain ⟨-, hplaced⟩ := placed_of_layout hL
  obtain ⟨hdata, hnodup, hdisjoint⟩ := List.nodup_append'.1 hplaced.addrs
  refine ⟨fun q hq => ?code, fun d hd => ?data, fun a ha => ?unused⟩
  case code =>
    obtain ⟨i, hi, hbytes⟩ := getElem?_emitCode hcode hnodup hq
    obtain ⟨hmnemonic, hoperand⟩ := resolveInstr_eq_ok hi
    refine ⟨i, hmnemonic, fun name hname => ?_, fun k b hk => ?_⟩
    · obtain ⟨a, ha, rfl⟩ := hoperand name hname
      have hf := hplaced.operands q hq (by simp [hname])
      exact ⟨a, ha, instrOf_operand_f1 hf _⟩
    · have hlt : q.addr + k < memSize :=
        hplaced.below _ (addrs_subset_usedAddrs hq L.data (addr_add_mem_addrs hi hk))
      have haddr : (addrAdd (BitVec.ofNat 8 q.addr) k).toNat = q.addr + k := by
        rw [addrAdd_toNat, ofNat_toNat_of_lt (Nat.lt_of_add_right_lt hlt)]
        exact Nat.mod_eq_of_lt hlt
      exact hread _ _ (haddr ▸ hbytes k b hk (by rwa [length_dataMemory]))
  case data =>
    have hlt : d.addr < memSize := hplaced.below _ (addr_mem_usedAddrs hd L.code)
    have hnot : d.addr ∉ L.code.flatMap PlacedInstr.addrs := hdisjoint (List.mem_map_of_mem hd)
    refine hread _ _ ?_
    rw [ofNat_toNat_of_lt hlt, getElem?_emitCode_of_not_mem hcode hnot]
    exact getElem?_emitData hdata hd (by rwa [List.length_replicate])
  case unused =>
    obtain ⟨hnotData, hnotCode⟩ := not_or.1 (mt List.mem_append.2 ha)
    refine hread _ _ ?_
    rw [getElem?_emitCode_of_not_mem hcode hnotCode, dataMemory, getElem?_emitData_of_not_mem hnotData]
    exact List.getElem?_replicate_of_lt a.isLt

/-! ## Names that resolve to nothing -/

/-- Emission fails in one way. -/
theorem resolveInstr_error_kind {L : Layout} {p : PlacedInstr} {e : AsmError} (h : resolveInstr L p = .error e) :
    e = ⟨.unresolvedSymbol, p.line⟩ := by
  unfold resolveInstr at h
  split at h
  case h_1 => cases h
  case h_2 =>
    split at h
    case h_1 => cases h; rfl
    case h_2 => cases h

/-- A code with an unresolved operand emits nothing: the first such operand is the error. -/
theorem emitCode_error_of_unresolved {map : OpcodeMap} {L : Layout} {ps : List PlacedInstr} {q : PlacedInstr}
    (hq : q ∈ ps) {name : Token} (hname : q.operand = some name) (hres : resolve L name = none) (mem : List Byte) :
    ∃ line, emitCode map L mem ps = .error ⟨.unresolvedSymbol, line⟩ := by
  induction ps generalizing mem with
  | nil => cases hq
  | cons p ps ih =>
    cases hp : resolveInstr L p with
    | error e =>
      refine ⟨p.line, ?_⟩
      rw [emitCode, hp, resolveInstr_error_kind hp]
    | ok i =>
      rcases List.mem_cons.1 hq with rfl | hq
      · obtain ⟨a, ha, -⟩ := (resolveInstr_eq_ok hp).2 name hname
        rw [hres] at ha
        cases ha
      · rw [emitCode, hp]
        exact ih hq _

/-- Settles O51: the code of the layout has an unresolved operand, so none of it is emitted. -/
theorem unresolvedNameNeverAssembles : Obligations.UnresolvedNameNeverAssembles := by
  intro map text L q name hL hq hname hres
  obtain ⟨line, hline⟩ :=
    emitCode_error_of_unresolved (map := map) hq hname hres (dataMemory L)
  rw [dataMemory] at hline
  exact ⟨line, by simp only [assemble, hL, emit, hline]⟩

end Sys2Proof.Machine
